-- ==== Sys2Proof/Word.lean ====
section
/-! DEFINITION. The word types of the LS-8 core (spec/00_scope.md R5, R6, R7).

Every register, memory cell, operand byte and opcode is one unsigned byte. The program counter is nine bits wide
because it must be able to hold 256, the address just past the end of memory (spec/10_state.md R29). -/

namespace Sys2Proof

/-- A register value, a memory cell, an operand byte, an opcode, a data address: `XLEN` = 8 bits (R5). -/
abbrev Byte := BitVec 8

/-- The program counter and the addresses recorded from it: `PC_BITS` = 9 bits, reachable values 0 to 256 (R5, R29). -/
abbrev PcWord := BitVec 9

/-- An index into the register file, 0 to 7 (R20). -/
abbrev RegIdx := Fin 8

/-- The number of an interrupt line, 0 to 7: `NLINES` = 8 (R5, R210). -/
abbrev Line := Fin 8

end Sys2Proof
end

