-- ==== Sys2Proof/Config.lean ====
section
/-! DEFINITION. The free values: what the spec leaves OPEN (spec/00_scope.md R5; spec/93_implementation_defined.md).

Each is a constant without a body, so that no proof can rest on a particular value. The parameters the spec does fix
stand in Machine/Params.lean. -/

namespace Sys2Proof

/-- `FL_RESET`: the value of FL from reset until the first CMP or IRET, any of the 256 bytes, the same one until FL
is written (R32, R41, U1). DESIGN CHOICE, log entry 1. -/
opaque Config.flReset : Byte

/-- `CONSOLE_ENCODING`: the bytes with which the host renders a PRA code point of 128 to 255 (R120, D19, U10).
Log entry 12. -/
opaque Config.consoleEncoding : Byte → List Byte

/-- `TRACE_LAYOUT`: the text of the trace report, from pc, FL, the three bytes at pc, pc + 1 and pc + 2 (`none` for one
beyond address 255) and the eight registers (R230, D28, U9). Log entry 13. -/
opaque Config.traceLayout : PcWord → Byte → List (Option Byte) → List Byte → List Byte

end Sys2Proof
end

