-- ==== Sys2Proof/Machine/Params.lean ====
section
/-! DEFINITION. The parameters the spec fixes and the reset values of the registers (spec/00_scope.md R5;
spec/10_state.md R39 to R41; spec/70_reset_and_hazards.md R242). -/

namespace Sys2Proof.Machine

/-- `MEM_SIZE`: the number of memory bytes (R5, R50). -/
def memSize : Nat := 256

/-- `SP_REG`: register 7 is the stack pointer (R21). -/
abbrev spReg : RegIdx := 7

/-- `IM_REG`: register 5 is the interrupt mask (R25, decision D2; PRESUMED by the spec, log entry 10). -/
abbrev imReg : RegIdx := 5

/-- `IS_REG`: register 6 is the interrupt status (R26, decision D2; PRESUMED by the spec, log entry 10). -/
abbrev isReg : RegIdx := 6

/-- `VEC_BASE`: the vector of line 0; line n has its vector at 0xF8 + n (R218, decision D3, log entry 10). -/
def vecBase : Byte := 0xF8

/-- `PC_RESET` (R39). -/
def pcAtReset : PcWord := 0

/-- `SP_RESET` (R24, R39). -/
def spAtReset : Byte := 0xF4

/-- `GPR_RESET`, registers 0 to 6 (R40, decision D10, log entry 2). -/
def gprAtReset : Byte := 0x00

/-- The register file at reset: R0 to R6, then SP (R39, R40). -/
def regsAtReset : Vector Byte 8 :=
  #v[gprAtReset, gprAtReset, gprAtReset, gprAtReset, gprAtReset, gprAtReset, gprAtReset, spAtReset]

/-- The instruction register at reset: unspecified and never observed (R33, U6). DESIGN CHOICE: zero, log entry 3. -/
def irAtReset : Byte := 0x00

/-- Each operand latch at reset: unspecified and never observed (R33, U6). DESIGN CHOICE: zero, log entry 3. -/
def opLatchAtReset : Byte := 0x00

/-- The latch that holds `a0` at reset: written before any read of it. DESIGN CHOICE: zero, log entry 3. -/
def a0AtReset : PcWord := 0

/-- FL at reset is the open parameter `FL_RESET` (R41, log entry 1). -/
def flAtReset : Byte := Config.flReset

end Sys2Proof.Machine
end

