-- ==== Sys2Proof/Machine/State.lean ====
section
/-! DEFINITION. The machine's state, the causes it stops for, and the state after reset (spec/10_state.md). -/

namespace Sys2Proof.Machine

/-- The four fatal conditions of the core (R200, R201). One is first RECORDED, in the state, by the cycle that raises
it (`RunState.faulted`); `step` then answers it as the outcome of every attempt to go on, for good. Safe: the hardware
executes nothing more either (R36). -/
inductive Fault where
  /-- The fetched byte is none of the 34 opcodes. Raised by step 5a of the cycle (R95, R202). Safe. -/
  | unknownOpcode
  /-- The divisor register is zero. Raised by DIV and MOD (R138, R139, R203). Safe. -/
  | divideByZero
  /-- A register index, a fetch address, an INT line number or a pc to be saved is out of bounds. Raised by the fetch,
  by every handler with a register operand, by INT, by CALL and by interrupt entry (R201, R204). Safe. -/
  | addressOutOfRange
  /-- Operand bytes run past the end of memory. Raised by step 3 of the cycle (R93, R205). Safe. -/
  | malformedInstructionStream
  deriving DecidableEq, Repr

/-- Why the model would have no meaning for an instruction. Nothing in this model answers it. -/
inductive Refusal where
  /-- An arm of `exec` that has no meaning yet would answer this; there is none. Safe. -/
  | notModelled (mnemonic : String)
  deriving DecidableEq, Repr

/-- The state of the interrupt controller (R34). -/
inductive Ictl where
  | normal
  | handling
  deriving DecidableEq, Repr

/-- The fault record (R35): the cause, the address of the failing instruction, and its opcode byte where one was
fetched. -/
structure FaultRecord where
  cause  : Fault
  addr   : PcWord
  opcode : Option Byte
  deriving DecidableEq, Repr

/-- The run state (R36). The fault record (R35) is part of Faulted, since there is one exactly then. -/
inductive RunState where
  | running
  | halted
  | faulted (record : FaultRecord)
  deriving DecidableEq, Repr

/-- The kind of a console event (R120). -/
inductive ConsoleKind where
  | prn
  | pra
  deriving DecidableEq, Repr

/-- One event on the console output port (R120). -/
structure ConsoleEvent where
  kind  : ConsoleKind
  value : Byte
  deriving DecidableEq, Repr

/-- All the state the spec gives the machine (R10; the table of spec/10_state.md section 1), and `ext`, the model's own
field for the one input of the core. -/
structure State where
  /-- R0 to R7; R5 is IM, R6 is IS, R7 is SP (R20, R21). -/
  regs     : Vector Byte 8
  /-- The program counter (R27). -/
  pc       : PcWord
  /-- The flags register (R30). -/
  fl       : Byte
  /-- `a0`, the address of the opcode byte of the instruction being executed (R7, R27). -/
  a0       : PcWord
  /-- The instruction register (R33). -/
  ir       : Byte
  /-- Operand latch a (R33). -/
  opA      : Byte
  /-- Operand latch b (R33). -/
  opB      : Byte
  /-- The interrupt controller state (R34). -/
  ictl     : Ictl
  /-- The run state and the fault record (R35, R36). -/
  runState : RunState
  /-- The console output history, oldest event first (R37). -/
  console  : List ConsoleEvent
  /-- The 256 bytes of memory in canonical form: addresses strictly rising, no byte 0x00 listed (R50; `Memory.wf`). -/
  mem      : List Host.Cell
  /-- The external interrupt requests still to come, one byte for each instruction boundary, the next first; past its
  end nothing is requested (R212). DESIGN CHOICE, log entry 4: the spec has a free input here, not state. -/
  ext      : List Byte
  deriving DecidableEq, Repr

/-- The state after reset for one draw of `FL_RESET` (R39 to R41, R242). -/
def State.resetWith (fl : Byte) : State where
  regs     := regsAtReset
  pc       := pcAtReset
  fl       := fl
  a0       := a0AtReset
  ir       := irAtReset
  opA      := opLatchAtReset
  opB      := opLatchAtReset
  ictl     := .normal
  runState := .running
  console  := []
  mem      := []
  ext      := []

/-- The machine right after reset (R242); FL holds the open value (R41). -/
def State.reset : State := State.resetWith flAtReset

/-- What a step or a handler answers. -/
abbrev Result := Host.Outcome State Fault Refusal

end Sys2Proof.Machine
end

