-- ==== Sys2Proof/Machine/Memory.lean ====
section
/-! DEFINITION. Memory as data: 256 bytes, one flat address space, zero where nothing is listed
(spec/20_memory.md R50 to R53). Ordinary storage everywhere: reading changes nothing, no address is special (R52). -/

namespace Sys2Proof.Machine

/-- What an address that is not listed reads as: memory is zero-initialized (R50). -/
def Memory.unlisted : Byte := 0x00

/-- The canonical form: addresses strictly rising, every one inside the 256 bytes, and no entry equal to what an
unlisted address reads as; so equal memories are equal lists. -/
abbrev Memory.wf (m : List Host.Cell) : Prop :=
  m.Pairwise (fun c d => c.1 < d.1) ∧ ∀ c ∈ m, c.1 < memSize ∧ c.2 ≠ Memory.unlisted

/-- The byte at an address (R52). -/
def Memory.read : List Host.Cell → Nat → Byte
  | [], _ => Memory.unlisted
  | c :: m, a => if c.1 = a then c.2 else Memory.read m a

/-- Put a cell in its place in the rising order. -/
def Memory.insert (c : Host.Cell) : List Host.Cell → List Host.Cell
  | [] => [c]
  | d :: m => if c.1 < d.1 then c :: d :: m else d :: Memory.insert c m

/-- Replace the byte at an address and nothing else (R52). -/
def Memory.write (m : List Host.Cell) (a : Nat) (v : Byte) : List Host.Cell :=
  if v = Memory.unlisted then m.filter (fun c => c.1 ≠ a)
  else Memory.insert (a, v) (m.filter (fun c => c.1 ≠ a))

/-- Write consecutive bytes upward from an address; a byte beyond address 255 is not written. -/
def Memory.writeBytes : List Host.Cell → Nat → List Byte → List Host.Cell
  | m, _, [] => m
  | m, a, v :: vs => Memory.writeBytes (if a < memSize then Memory.write m a v else m) (a + 1) vs

end Sys2Proof.Machine
end

