-- ==== Sys2Proof/Machine/Ops.lean ====
section
/-! DEFINITION. The named operations over the state: the pseudocode primitives of spec/00_scope.md R7, raising a fault
(spec/60_exceptions.md R200), and the interrupt controller: merging, recognition, entry and return
(spec/60_exceptions.md R212 to R219; spec/47_interrupt_instructions.md R191). -/

namespace Sys2Proof.Machine

/-! ### Single-field operations -/

/-- `x[i]` (R7). -/
def State.reg (s : State) (i : RegIdx) : Byte := s.regs[i.val]

/-- `x[i] <- v`; no register is hard-wired or read-only (R22). -/
def State.setReg (s : State) (i : RegIdx) (v : Byte) : State := { s with regs := s.regs.set i v i.isLt }

/-- `SP`, an alias of `x[7]` (R7, R24). -/
abbrev State.sp (s : State) : Byte := s.reg spReg

/-- `IM`, an alias of `x[5]` (R7, R25). -/
abbrev State.im (s : State) : Byte := s.reg imReg

/-- `IS`, an alias of `x[6]` (R7, R26). -/
abbrev State.is (s : State) : Byte := s.reg isReg

/-- `pc <- v`. -/
def State.setPc (s : State) (v : PcWord) : State := { s with pc := v }

/-- `FL <- v`, all eight bits (R30). -/
def State.setFl (s : State) (v : Byte) : State := { s with fl := v }

/-- Write the interrupt controller state (R34). -/
def State.setIctl (s : State) (c : Ictl) : State := { s with ictl := c }

/-- Write the run state (R36). -/
def State.setRunState (s : State) (r : RunState) : State := { s with runState := r }

/-- Latch the address of the opcode byte of this cycle's instruction (R7). -/
def State.setA0 (s : State) (v : PcWord) : State := { s with a0 := v }

/-- `IR <- v` (R91). -/
def State.setIr (s : State) (v : Byte) : State := { s with ir := v }

/-- Write the operand latches (R93). -/
def State.setOperands (s : State) (a b : Byte) : State := { s with opA := a, opB := b }

/-- What is left of the external requests (R212). -/
def State.setExt (s : State) (e : List Byte) : State := { s with ext := e }

/-- `MemRead(addr, 1)` (R52). -/
def State.memRead (s : State) (addr : Byte) : Byte := Memory.read s.mem addr.toNat

/-- `MemWrite(addr, 1, v)` (R52). -/
def State.memWrite (s : State) (addr v : Byte) : State := { s with mem := Memory.write s.mem addr.toNat v }

/-- `emit(kind, v)`: append one event to the console output history (R37, R120). -/
def State.emit (s : State) (k : ConsoleKind) (v : Byte) : State := { s with console := s.console ++ [⟨k, v⟩] }

/-- `zext_9(v)` (R7). -/
def zext9 (v : Byte) : PcWord := v.setWidth 9

/-- `pc[7:0]` (R170, R216). -/
def low8 (v : PcWord) : Byte := v.setWidth 8

/-! ### Faults -/

/-- The numeric cause codes 1 to 4 (R201, decision D17). -/
def Fault.code : Fault → BitVec 3
  | .unknownOpcode => 1
  | .divideByZero => 2
  | .addressOutOfRange => 3
  | .malformedInstructionStream => 4

/-- The fault record, where a fault has occurred (R35). -/
def State.faultRecord (s : State) : Option FaultRecord :=
  match s.runState with
  | .faulted r => some r
  | .running | .halted => none

/-- The cause code the host reads; 0 stands for no fault recorded (R201, R246). -/
def State.causeCode (s : State) : BitVec 3 :=
  match s.faultRecord with
  | some r => r.cause.code
  | none => 0

/-- `raise <Cause>(addr, ir)` (R200): the run state becomes Faulted with the record, and nothing else happens. -/
def State.raise (s : State) (cause : Fault) (addr : PcWord) (opcode : Option Byte) : State :=
  s.setRunState (.faulted ⟨cause, addr, opcode⟩)

/-- `raise <Cause>(a0, IR)`: how every handler raises, and steps 3 and 5a of the cycle. -/
def State.raiseHere (s : State) (cause : Fault) : State := s.raise cause s.a0 (some s.ir)

/-! ### The stack -/

/-- `push(v)`: decrement SP modulo 256, then write at the new SP (R160, R162). -/
def State.push (s : State) (v : Byte) : State :=
  let s := s.setReg spReg (s.sp - 1)
  s.memWrite s.sp v

/-- The byte `pop()` yields, read at the old SP (R161). -/
def State.popValue (s : State) : Byte := s.memRead s.sp

/-- The state `pop()` leaves: SP incremented modulo 256, the byte still in memory (R161, R162). -/
def State.popState (s : State) : State := s.setReg spReg (s.sp + 1)

/-- `x[i] <- pop()`. -/
def State.popReg (s : State) (i : RegIdx) : State := s.popState.setReg i s.popValue

/-- `FL <- pop()`. -/
def State.popFl (s : State) : State := s.popState.setFl s.popValue

/-- `pc <- zext_9(pop())`. -/
def State.popPc (s : State) : State := s.popState.setPc (zext9 s.popValue)

/-! ### The interrupt controller -/

/-- The byte with bit n alone set: `1 << n`. -/
def lineBit (n : Line) : Byte := 1#8 <<< n.val

/-- Bit n of IS becomes 1 (R190). -/
def State.raiseLine (s : State) (n : Line) : State := s.setReg isReg (s.is ||| lineBit n)

/-- Bit n of IS becomes 0: `IS <- IS & ~(1 << n)` (R216). -/
def State.clearLine (s : State) (n : Line) : State := s.setReg isReg (s.is &&& ~~~ lineBit n)

/-- The external requests presented at the coming boundary, `ext` of R99: the head of the list, 0 past its end. -/
def State.extNow (s : State) : Byte := s.ext.headD 0

/-- `IS <- IS | ext`, and this boundary's requests are used up (R212). -/
def State.mergeExternal (s : State) : State := (s.setReg isReg (s.is ||| s.extNow)).setExt s.ext.tail

/-- The lowest-numbered set bit (R214). -/
def lowestLine (m : Byte) : Option Line :=
  ([0, 1, 2, 3, 4, 5, 6, 7] : List Line).find? fun n => m.getLsbD n.val

/-- Recognition (R213, R214): with the controller Normal, the lowest line that is both pending and enabled; while it is
Handling, none (R220). -/
def State.recognized (s : State) : Option Line :=
  match s.ictl with
  | .normal => lowestLine (s.im &&& s.is)
  | .handling => none

/-- The address of the vector of line n (R218). -/
def vectorAddr (n : Line) : Byte := vecBase + BitVec.ofNat 8 n.val

/-- Push registers 0 to 6 in this order (R216). -/
def State.pushRegs (s : State) : State :=
  ([0, 1, 2, 3, 4, 5, 6] : List RegIdx).foldl (fun s i => s.push (s.reg i)) s

/-- Pop registers 6 down to 0 (R191). -/
def State.popRegs (s : State) : State :=
  ([6, 5, 4, 3, 2, 1, 0] : List RegIdx).foldl State.popReg s

/-- TAKING AN INTERRUPT, the one exception that vectors to software (R216): controller to Handling, the taken line's
pending bit cleared, pc then FL then x[0] to x[6] pushed, pc loaded from the vector, which is read after the pushes.
A pc of 256 does not fit the saved byte and faults before anything changes; `Except.error` is a cycle that a fault
ended, in the state the fault left. -/
def State.interruptEntry (s : State) (n : Line) : Except State State :=
  if 255 < s.pc.toNat then .error (s.raise .addressOutOfRange s.pc none)
  else
    let t := ((((s.setIctl .handling).clearLine n).push (low8 s.pc)).push s.fl).pushRegs
    .ok (t.setPc (zext9 (t.memRead (vectorAddr n))))

/-- RETURN FROM AN INTERRUPT (R191): pop x[6] to x[0], FL and pc, and the controller is Normal. -/
def State.interruptReturn (s : State) : State := s.popRegs.popFl.popPc.setIctl .normal

/-- Step 0 of the cycle, the actions at an instruction boundary (R90, R99): merge the external requests, then enter at
most one interrupt. -/
def State.boundary (s : State) : Except State State :=
  let s := s.mergeExternal
  match s.recognized with
  | some n => s.interruptEntry n
  | none => .ok s

end Sys2Proof.Machine
end

