-- ==== Sys2Proof/Machine/Flags.lean ====
section
/-! DEFINITION. The flags register FL and its two uses: what CMP writes (spec/43_alu_binary.md R145) and what the
conditional jumps test (spec/46_control_transfer.md R174). -/

namespace Sys2Proof.Machine

/-- The Equal bit, FL[0] (R30). -/
def State.flagE (s : State) : Bool := s.fl.getLsbD 0

/-- The Greater-than bit, FL[1] (R30). -/
def State.flagG (s : State) : Bool := s.fl.getLsbD 1

/-- The Less-than bit, FL[2] (R30). -/
def State.flagL (s : State) : Bool := s.fl.getLsbD 2

/-- The byte CMP writes: exactly one of Equal, Greater-than and Less-than by the unsigned order of the operands, and
the other seven bits clear (R131, R145). -/
def cmpFlags (a b : Byte) : Byte :=
  if a.toNat = b.toNat then 0b00000001
  else if b.toNat < a.toNat then 0b00000010
  else 0b00000100

end Sys2Proof.Machine
end

