-- ==== Sys2Proof/Machine/Operands.lean ====
section
/-! DEFINITION. The operand forms (spec/30_encoding.md R73 to R75): a register index, checked before anything else a
handler does; an immediate, taken as it stands. -/

namespace Sys2Proof.Machine

/-- The operand byte that names register i. -/
def regByte (i : RegIdx) : Byte := BitVec.ofNat 8 i.val

/-- The register an operand byte names: the whole byte, valid only from 0 to 7; nothing is masked (R74). -/
def regIndex (v : Byte) : Option RegIdx := if h : v.toNat < 8 then some ⟨v.toNat, h⟩ else none

/-- `reg(a)`, then the rest of the handler: a byte above 7 raises AddressOutOfRange(a0, IR) and the handler does nothing
else (R74). -/
def withReg (a : Byte) (s : State) (handler : RegIdx → Result) : Result :=
  match regIndex a with
  | some i => handler i
  | none => .next (s.raiseHere .addressOutOfRange)

/-- `reg(a); reg(b)`, a before b, then the rest of the handler (R74). -/
def withRegs (a b : Byte) (s : State) (handler : RegIdx → RegIdx → Result) : Result :=
  withReg a s fun i => withReg b s fun j => handler i j

end Sys2Proof.Machine
end

