-- ==== Sys2Proof/Machine/Alu.lean ====
section
/-! DEFINITION. The ALU (spec/43_alu_binary.md R130 to R134): a stateless set of functions on unsigned bytes, each computed
exactly on the integers and reduced modulo 256, and the shapes of the handlers that use it. -/

namespace Sys2Proof.Machine

/-- R135: the sum, modulo 256. -/
def aluAdd (a b : Byte) : Byte := BitVec.ofNat 8 (a.toNat + b.toNat)

/-- R136: the exact difference, modulo 256 (the non-negative remainder). -/
def aluSub (a b : Byte) : Byte := BitVec.ofInt 8 ((a.toNat : Int) - (b.toNat : Int))

/-- R137: the product, modulo 256. -/
def aluMul (a b : Byte) : Byte := BitVec.ofNat 8 (a.toNat * b.toNat)

/-- R138: the quotient of the unsigned values; used only with a divisor that is not 0. -/
def aluDiv (a b : Byte) : Byte := BitVec.ofNat 8 (a.toNat / b.toNat)

/-- R139: `A - B * floor(A / B)`; used only with a divisor that is not 0. -/
def aluMod (a b : Byte) : Byte := BitVec.ofNat 8 (a.toNat - b.toNat * (a.toNat / b.toNat))

/-- R140. -/
def aluAnd (a b : Byte) : Byte := a &&& b

/-- R141. -/
def aluOr (a b : Byte) : Byte := a ||| b

/-- R142. -/
def aluXor (a b : Byte) : Byte := a ^^^ b

/-- R143: the whole byte is the count; 8 or more gives 0. -/
def aluShl (a b : Byte) : Byte := BitVec.ofNat 8 (a.toNat * 2 ^ b.toNat)

/-- R144: a logical shift, the whole byte the count; 8 or more gives 0. -/
def aluShr (a b : Byte) : Byte := BitVec.ofNat 8 (a.toNat / 2 ^ b.toNat)

/-- R150: the complement over exactly 8 bits. -/
def aluNot (a : Byte) : Byte := BitVec.ofNat 8 (255 - a.toNat)

/-- R151: increment, modulo 256. -/
def aluInc (a : Byte) : Byte := BitVec.ofNat 8 (a.toNat + 1)

/-- R152: decrement, modulo 256. -/
def aluDec (a : Byte) : Byte := BitVec.ofInt 8 ((a.toNat : Int) - 1)

/-- The handlers with two register operands that write the first (R134): check a, check b, read both, write x[a].
FL is not written (R133). -/
def aluBinary (f : Byte → Byte → Byte) (a b : Byte) (s : State) : Result :=
  withRegs a b s fun i j => .next (s.setReg i (f (s.reg i) (s.reg j)))

/-- DIV and MOD (R134, R203): as `aluBinary`, with the zero divisor a fault after the register checks and before the
write. -/
def aluDivide (f : Byte → Byte → Byte) (a b : Byte) (s : State) : Result :=
  withRegs a b s fun i j =>
    if s.reg j = 0 then .next (s.raiseHere .divideByZero)
    else .next (s.setReg i (f (s.reg i) (s.reg j)))

/-- The handlers with one register operand (spec/44_alu_unary.md). -/
def aluUnary (f : Byte → Byte) (a : Byte) (s : State) : Result :=
  withReg a s fun i => .next (s.setReg i (f (s.reg i)))

end Sys2Proof.Machine
end

