-- ==== Sys2Proof/Machine/AluBinary.lean ====
section
/-! DEFINITION. The eleven ALU instructions with two register operands (spec/43_alu_binary.md R135 to R145). -/

namespace Sys2Proof.Machine

/-- R135: `x[a] <- (x[a] + x[b]) mod 256`. -/
def execAdd (a b : Byte) (s : State) : Result := aluBinary aluAdd a b s

/-- R136: `x[a] <- (x[a] - x[b]) mod 256`. -/
def execSub (a b : Byte) (s : State) : Result := aluBinary aluSub a b s

/-- R137: `x[a] <- (x[a] * x[b]) mod 256`. -/
def execMul (a b : Byte) (s : State) : Result := aluBinary aluMul a b s

/-- R138: DivideByZero if `x[b] = 0`, else `x[a] <- floor(x[a] / x[b])`. -/
def execDiv (a b : Byte) (s : State) : Result := aluDivide aluDiv a b s

/-- R139: DivideByZero if `x[b] = 0`, else the remainder. -/
def execMod (a b : Byte) (s : State) : Result := aluDivide aluMod a b s

/-- R140. -/
def execAnd (a b : Byte) (s : State) : Result := aluBinary aluAnd a b s

/-- R141. -/
def execOr (a b : Byte) (s : State) : Result := aluBinary aluOr a b s

/-- R142. -/
def execXor (a b : Byte) (s : State) : Result := aluBinary aluXor a b s

/-- R143. -/
def execShl (a b : Byte) (s : State) : Result := aluBinary aluShl a b s

/-- R144. -/
def execShr (a b : Byte) (s : State) : Result := aluBinary aluShr a b s

/-- R145: writes all of FL and no register. -/
def execCmp (a b : Byte) (s : State) : Result :=
  withRegs a b s fun i j => .next (s.setFl (cmpFlags (s.reg i) (s.reg j)))

end Sys2Proof.Machine
end

