-- ==== Sys2Proof/Machine/AluUnary.lean ====
section
/-! DEFINITION. The ALU instructions with one register operand (spec/44_alu_unary.md R150 to R152). -/

namespace Sys2Proof.Machine

/-- R150: `x[a] <- 255 - x[a]`. -/
def execNot (a : Byte) (s : State) : Result := aluUnary aluNot a s

/-- R151: `x[a] <- (x[a] + 1) mod 256`. -/
def execInc (a : Byte) (s : State) : Result := aluUnary aluInc a s

/-- R152: `x[a] <- (x[a] - 1) mod 256`. -/
def execDec (a : Byte) (s : State) : Result := aluUnary aluDec a s

end Sys2Proof.Machine
end

