-- ==== Sys2Proof/Machine/Console.lean ====
section
/-! DEFINITION. PRN and PRA, and how the host renders their events (spec/42_console_output.md R120 to R122). -/

namespace Sys2Proof.Machine

/-- R121: `reg(a); emit(PRN, x[a])`. -/
def execPrn (a : Byte) (s : State) : Result := withReg a s fun i => .next (s.emit .prn (s.reg i))

/-- R122: `reg(a); emit(PRA, x[a])`. -/
def execPra (a : Byte) (s : State) : Result := withReg a s fun i => .next (s.emit .pra (s.reg i))

/-- The decimal digits of a byte as character codes, without sign, padding or leading zeros (R120). -/
def decimalDigits (v : Byte) : List Byte :=
  let d (k : Nat) : Byte := BitVec.ofNat 8 (48 + k % 10)
  let n := v.toNat
  if n < 10 then [d n]
  else if n < 100 then [d (n / 10), d n]
  else [d (n / 100), d (n / 10), d n]

/-- The bytes with which the host renders one event (R120): PRN the decimal digits and one line feed (D19); PRA the
code point alone, itself below 128 (R122; PRESUMED, log entry 12), the open `CONSOLE_ENCODING` from 128 on. -/
def ConsoleEvent.render (e : ConsoleEvent) : List Byte :=
  match e.kind with
  | .prn => decimalDigits e.value ++ [0x0A]
  | .pra => if e.value.toNat < 128 then [e.value] else Config.consoleEncoding e.value

/-- The host's text of the whole history, in the order emitted (R120). -/
def State.consoleText (s : State) : List Byte := s.console.flatMap ConsoleEvent.render

end Sys2Proof.Machine
end

