-- ==== Sys2Proof/Machine/Control.lean ====
section
/-! DEFINITION. NOP and HLT (spec/40_cycle_nop_hlt.md R103, R104). -/

namespace Sys2Proof.Machine

/-- R103: no effect; step 4 of the cycle has already advanced pc. -/
def execNop (s : State) : Result := .next s

/-- R104: `run_state <- Halted`; everything else keeps its value. -/
def execHlt (s : State) : Result := .next (s.setRunState .halted)

end Sys2Proof.Machine
end

