-- ==== Sys2Proof/Machine/DataMovement.lean ====
section
/-! DEFINITION. LDI, LD and ST (spec/41_data_movement.md R110 to R112). -/

namespace Sys2Proof.Machine

/-- R110: `reg(a); x[a] <- b`; the immediate is never checked. -/
def execLdi (a b : Byte) (s : State) : Result := withReg a s fun i => .next (s.setReg i b)

/-- R111: `reg(a); reg(b); x[a] <- MemRead(x[b], 1)`; the address is read before the write. -/
def execLd (a b : Byte) (s : State) : Result :=
  withRegs a b s fun i j => .next (s.setReg i (s.memRead (s.reg j)))

/-- R112: `reg(a); reg(b); MemWrite(x[a], 1, x[b])`; the address register is the first operand. -/
def execSt (a b : Byte) (s : State) : Result :=
  withRegs a b s fun i j => .next (s.memWrite (s.reg i) (s.reg j))

end Sys2Proof.Machine
end

