-- ==== Sys2Proof/Machine/Interrupt.lean ====
section
/-! DEFINITION. INT and IRET (spec/47_interrupt_instructions.md R190, R191). -/

namespace Sys2Proof.Machine

/-- R190: the line whose number x[a] holds becomes pending; a number above 7 is out of range. INT itself neither looks at
IM nor transfers control: the controller does, at the next boundary (R213). -/
def execInt (a : Byte) (s : State) : Result :=
  withReg a s fun i =>
    if h : (s.reg i).toNat < 8 then .next (s.raiseLine ⟨(s.reg i).toNat, h⟩)
    else .next (s.raiseHere .addressOutOfRange)

/-- R191: unconditional, whatever the controller state (decision D12). -/
def execIret (s : State) : Result := .next s.interruptReturn

end Sys2Proof.Machine
end

