-- ==== Sys2Proof/Machine/Jump.lean ====
section
/-! DEFINITION. The control transfers CALL, RET, JMP and the six conditional jumps (spec/46_control_transfer.md R170 to
R181). When one runs, pc already holds the address of the next sequential instruction (R94). -/

namespace Sys2Proof.Machine

/-- A jump to the address in x[a] when its test holds; the register is checked whether or not it does, and a jump that is
not taken leaves pc at the next sequential instruction (R173, R175). -/
def jumpIf (test : State → Bool) (a : Byte) (s : State) : Result :=
  withReg a s fun i => .next (s.setPc (if test s then zext9 (s.reg i) else s.pc))

/-- R170: a return address of 256 does not fit a stack byte and faults; else push it, then x[a], read after the push, is
the new pc. -/
def execCall (a : Byte) (s : State) : Result :=
  withReg a s fun i =>
    if 255 < s.pc.toNat then .next (s.raiseHere .addressOutOfRange)
    else
      let t := s.push (low8 s.pc)
      .next (t.setPc (zext9 (t.reg i)))

/-- R171: `pc <- zext_9(pop())`. -/
def execRet (s : State) : Result := .next s.popPc

/-- R172. -/
def execJmp (a : Byte) (s : State) : Result := jumpIf (fun _ => true) a s

/-- R175: taken when Equal is set. -/
def execJeq (a : Byte) (s : State) : Result := jumpIf (fun s => s.flagE) a s

/-- R176: taken when Equal is clear. -/
def execJne (a : Byte) (s : State) : Result := jumpIf (fun s => !s.flagE) a s

/-- R177: taken when Greater-than is set. -/
def execJgt (a : Byte) (s : State) : Result := jumpIf (fun s => s.flagG) a s

/-- R178: taken when Less-than is set. -/
def execJlt (a : Byte) (s : State) : Result := jumpIf (fun s => s.flagL) a s

/-- R180: taken when Greater-than is clear. -/
def execJle (a : Byte) (s : State) : Result := jumpIf (fun s => !s.flagG) a s

/-- R179: taken when Less-than is clear. -/
def execJge (a : Byte) (s : State) : Result := jumpIf (fun s => !s.flagL) a s

end Sys2Proof.Machine
end

