-- ==== Sys2Proof/Machine/Stack.lean ====
section
/-! DEFINITION. PUSH and POP (spec/45_stack.md R163, R164), their steps in the order written (decision D15). -/

namespace Sys2Proof.Machine

/-- R163: SP is decremented first and x[a] read after it, so `PUSH R7` pushes the new SP. -/
def execPush (a : Byte) (s : State) : Result :=
  withReg a s fun i =>
    let t := s.setReg spReg (s.sp - 1)
    .next (t.memWrite t.sp (t.reg i))

/-- R164: x[a] is written first and SP read after it, so `POP R7` ends with the popped byte plus one. -/
def execPop (a : Byte) (s : State) : Result :=
  withReg a s fun i =>
    let t := s.setReg i (s.memRead s.sp)
    .next (t.setReg spReg (t.sp + 1))

end Sys2Proof.Machine
end

