-- ==== Sys2Proof/Syntax.lean ====
section
/-! DEFINITION. The instruction set: one constructor per row of spec/opcode_table.json (spec/30_encoding.md R76),
its arguments the operand bytes in encoding order (R73, R82). -/

namespace Sys2Proof

/-- The 34 instructions of R76.

An operand in a register position is kept as the WHOLE byte that was fetched, because R74 makes the check that it is
0 to 7 the first thing the HANDLER does: a byte of 8 to 255 there is a decodable instruction whose execution faults,
not an undecodable one. `Instr.wellFormed` (WellFormed.lean) is the check. -/
inductive Instr where
  /-- R103, no operation. -/
  | nop
  /-- R104, halt. -/
  | hlt
  /-- R110, load immediate: `a` destination register, `b` immediate. -/
  | ldi (a b : Byte)
  /-- R111, load: `a` destination register, `b` register holding the address. -/
  | ld (a b : Byte)
  /-- R112, store: `a` register holding the address, `b` register holding the value. -/
  | st (a b : Byte)
  /-- R121, print register `a` as a number. -/
  | prn (a : Byte)
  /-- R122, print register `a` as a character. -/
  | pra (a : Byte)
  /-- R135. -/
  | add (a b : Byte)
  /-- R136. -/
  | sub (a b : Byte)
  /-- R137. -/
  | mul (a b : Byte)
  /-- R138. -/
  | div (a b : Byte)
  /-- R139. -/
  | mod (a b : Byte)
  /-- R145. -/
  | cmp (a b : Byte)
  /-- R140. -/
  | and (a b : Byte)
  /-- R141. -/
  | or (a b : Byte)
  /-- R142. -/
  | xor (a b : Byte)
  /-- R143. -/
  | shl (a b : Byte)
  /-- R144. -/
  | shr (a b : Byte)
  /-- R150. -/
  | not (a : Byte)
  /-- R151. -/
  | inc (a : Byte)
  /-- R152. -/
  | dec (a : Byte)
  /-- R163. -/
  | push (a : Byte)
  /-- R164. -/
  | pop (a : Byte)
  /-- R170: `a` register holding the subroutine's address. -/
  | call (a : Byte)
  /-- R171. -/
  | ret
  /-- R172: `a` register holding the target, as in all the jumps below. -/
  | jmp (a : Byte)
  /-- R175. -/
  | jeq (a : Byte)
  /-- R176. -/
  | jne (a : Byte)
  /-- R177. -/
  | jgt (a : Byte)
  /-- R178. -/
  | jlt (a : Byte)
  /-- R180. -/
  | jle (a : Byte)
  /-- R179. -/
  | jge (a : Byte)
  /-- R190: `a` register holding the interrupt line number. -/
  | int (a : Byte)
  /-- R191, return from interrupt. -/
  | iret
  deriving DecidableEq, Repr

end Sys2Proof
end

