-- ==== Sys2Proof/WellFormed.lean ====
section
/-! DEFINITION. Well-formedness of an instruction: every operand in a register position names a register
(spec/30_encoding.md R73, R74). The immediate of LDI is never checked (R75). -/

namespace Sys2Proof

/-- The operand bytes that stand in register positions, `a` before `b`, the order in which R74 checks them; the
column of R73's table. -/
def Instr.regOperands : Instr → List Byte
  | .nop | .hlt | .ret | .iret => []
  | .ldi a _ => [a]
  | .ld a b | .st a b | .add a b | .sub a b | .mul a b | .div a b | .mod a b | .cmp a b
  | .and a b | .or a b | .xor a b | .shl a b | .shr a b => [a, b]
  | .prn a | .pra a | .not a | .inc a | .dec a | .push a | .pop a | .call a | .jmp a | .jeq a | .jne a
  | .jgt a | .jlt a | .jle a | .jge a | .int a => [a]

/-- R74: a register operand is valid only when the whole byte is 0 to 7. -/
def validRegOperand (v : Byte) : Bool := decide (v.toNat < 8)

/-- An instruction all of whose register operands name registers. One that is not well formed decodes and executes:
its execution raises AddressOutOfRange (R74). -/
def Instr.wellFormed (i : Instr) : Bool := i.regOperands.all validRegOperand

end Sys2Proof
end

