-- ==== Sys2Proof/Decode.lean ====
section
/-! DEFINITION. The opcode map, the decoder and the encoder (spec/30_encoding.md R70 to R81;
spec/40_cycle_nop_hlt.md R92, R95, R101). -/

namespace Sys2Proof

/-- The opcode byte of an instruction: the ONE table of opcode values, R76 and R77, which decoder and encoder share.
Fourteen of the values are the source's; the other twenty are the spec's decision D1 (PRESUMED, log entry 9). -/
def Instr.opcode : Instr → Byte
  | .nop      => 0b00000000
  | .hlt      => 0b00000001
  | .ldi _ _  => 0b10000010
  | .ld _ _   => 0b10000011
  | .st _ _   => 0b10000100
  | .prn _    => 0b01000111
  | .pra _    => 0b01001000
  | .add _ _  => 0b10100000
  | .sub _ _  => 0b10100001
  | .mul _ _  => 0b10100010
  | .div _ _  => 0b10100011
  | .mod _ _  => 0b10100100
  | .cmp _ _  => 0b10100111
  | .and _ _  => 0b10101000
  | .or _ _   => 0b10101010
  | .xor _ _  => 0b10101011
  | .shl _ _  => 0b10101100
  | .shr _ _  => 0b10101101
  | .not _    => 0b01101001
  | .inc _    => 0b01100101
  | .dec _    => 0b01100110
  | .push _   => 0b01000101
  | .pop _    => 0b01000110
  | .call _   => 0b01010000
  | .ret      => 0b00010001
  | .jmp _    => 0b01010100
  | .jeq _    => 0b01010101
  | .jne _    => 0b01010110
  | .jgt _    => 0b01010111
  | .jlt _    => 0b01011000
  | .jle _    => 0b01011001
  | .jge _    => 0b01011010
  | .int _    => 0b01010010
  | .iret     => 0b00010011

/-- The operand bytes of an instruction in memory order, operand a first (R70, R73). -/
def Instr.operands : Instr → List Byte
  | .nop | .hlt | .ret | .iret => []
  | .ldi a b | .ld a b | .st a b | .add a b | .sub a b | .mul a b | .div a b | .mod a b | .cmp a b
  | .and a b | .or a b | .xor a b | .shl a b | .shr a b => [a, b]
  | .prn a | .pra a | .not a | .inc a | .dec a | .push a | .pop a | .call a | .jmp a | .jeq a | .jne a
  | .jgt a | .jlt a | .jle a | .jge a | .int a => [a]

/-- R71, R92: the operand count is `IR[7:6]`, "value >> 6" as an unsigned number 0 to 3, computed for every byte, known
opcode or not. -/
def operandCount (ir : Byte) : Nat := ir.toNat / 64

/-- The 34 rows of the opcode map (R76), each with the operand bytes `a` and `b` filled in where it has them. -/
def rows (a b : Byte) : List Instr :=
  [.nop, .hlt, .ldi a b, .ld a b, .st a b, .prn a, .pra a] ++
  [.add a b, .sub a b, .mul a b, .div a b, .mod a b, .cmp a b] ++
  [.and a b, .or a b, .xor a b, .shl a b, .shr a b, .not a, .inc a, .dec a] ++
  [.push a, .pop a, .call a, .ret, .jmp a, .jeq a, .jne a, .jgt a, .jlt a, .jle a, .jge a] ++
  [.int a, .iret]

/-- The dispatch table (R95, R101): the instruction whose opcode is the whole byte `ir`, or none. All eight bits are
compared; no bit of 5 to 0 has a meaning of its own (R72). -/
def dispatch (ir a b : Byte) : Option Instr := (rows a b).find? fun i => i.opcode == ir

/-- Why a byte sequence is no instruction. -/
inductive DecodeReject where
  /-- There is no opcode byte. -/
  | noOpcode
  /-- Fewer operand bytes than `IR[7:6]` calls for: R93's MalformedInstructionStream. -/
  | malformed (ir : Byte)
  /-- The byte is none of the 34 opcodes: R79's UnknownOpcode. -/
  | unknownOpcode (ir : Byte)
  deriving DecidableEq, Repr

/-- Decode the instruction at the head of a byte sequence; answers the instruction and the bytes after it. The checks
stand in the order of the cycle (R93 before R95): too few operand bytes before an unknown opcode. -/
def decode : List Byte → Except DecodeReject (Instr × List Byte)
  | [] => .error .noOpcode
  | ir :: rest =>
    if rest.length < operandCount ir then .error (.malformed ir)
    else
      match dispatch ir (rest.getD 0 0) (rest.getD 1 0) with
      | none => .error (.unknownOpcode ir)
      | some i => .ok (i, rest.drop (operandCount ir))

/-- The bytes of an instruction, opcode at the lowest address, then operand a, then operand b (R55, R70). -/
def encode (i : Instr) : List Byte := i.opcode :: i.operands

/-- The first three bytes of an instruction whose bits are numbered as spec/opcode_table.json numbers them: bit 0 is
the least significant bit of the opcode byte, the second byte is bits 15 to 8; bits at and above `nbits` are 0. -/
def tableBytes (nbits w : Nat) : List Byte :=
  let v := w % 2 ^ nbits
  [BitVec.ofNat 8 v, BitVec.ofNat 8 (v / 256), BitVec.ofNat 8 (v / 65536)]

/-- The instruction the decoder reads from a word of spec/opcode_table.json. -/
def decodeTableWord (nbits w : Nat) : Option Instr :=
  match decode (tableBytes nbits w) with
  | .ok (i, _) => some i
  | .error _ => none

end Sys2Proof
end

