-- ==== Sys2Proof/Machine/Fetch.lean ====
section
/-! DEFINITION. Steps 1 to 5a of the cycle: fetch, length decode, operand fetch, pc advance, dispatch
(spec/40_cycle_nop_hlt.md R91 to R95). -/

namespace Sys2Proof.Machine

/-- The `n` operand bytes after the opcode byte at `a0`. -/
def State.operandBytes (s : State) (a0 n : Nat) : List Byte :=
  (List.range n).map fun k => Memory.read s.mem (a0 + 1 + k)

/-- Write the latches a and b with the operand bytes fetched; a latch for which none was fetched keeps its value, and a
third byte is read and never used (R93). -/
def State.latchOperands (s : State) (ops : List Byte) : State := s.setOperands (ops.getD 0 s.opA) (ops.getD 1 s.opB)

/-- Steps 1 to 5a (R91 to R95). `ok` is the instruction to execute and the state its handler starts from, with pc already
advanced; `error` is a cycle that a fault ended, in the state it left (R97). -/
def State.fetchDecode (s : State) : Except State (Instr × State) :=
  let a0 := s.pc.toNat
  let s := s.setA0 s.pc
  if 255 < a0 then .error (s.raise .addressOutOfRange s.a0 none)
  else
    let ir := Memory.read s.mem a0
    let s := s.setIr ir
    let count := operandCount ir
    if 255 < a0 + count then .error (s.raiseHere .malformedInstructionStream)
    else
      let ops := s.operandBytes a0 count
      let s := (s.latchOperands ops).setPc (BitVec.ofNat 9 (a0 + 1 + count))
      match decode (ir :: ops) with
      | .ok (i, _) => .ok (i, s)
      | .error _ => .error (s.raiseHere .unknownOpcode)

end Sys2Proof.Machine
end

