-- ==== Sys2Proof/Machine/Loader.lean ====
section
/-! DEFINITION. The loader's contract with memory, before the first cycle (spec/70_reset_and_hazards.md R240, R241). -/

namespace Sys2Proof.Machine

/-- `mem[i] <- image[i]` from address 0 upward, in file order; memory only, never registers, pc or FL. An image of more
than 256 bytes is a LoadFailure and the core does not start: none (R241, decision D22; R206). -/
def State.load (s : State) (image : List Byte) : Option State :=
  if image.length ≤ memSize then some { s with mem := Memory.writeBytes s.mem 0 image } else none

/-- The machine at its first cycle: reset with a draw of FL, the image loaded, and the external requests that will be
presented at the boundaries to come (R240 to R243). -/
def boot (fl : Byte) (image : List Byte) (ext : List Byte) : Option State :=
  ((State.resetWith fl).setExt ext).load image

end Sys2Proof.Machine
end

