-- ==== Sys2Proof/Machine/Trace.lean ====
section
/-! DEFINITION. The trace port: the host's read-only view of the machine (spec/60_exceptions.md R230). -/

namespace Sys2Proof.Machine

/-- What the trace reports: pc, FL, the bytes at pc, pc + 1 and pc + 2 (`none`: beyond address 255, absent and not read)
and the eight registers (R230, decision D28). -/
structure TraceView where
  pc   : PcWord
  fl   : Byte
  next : List (Option Byte)
  regs : Vector Byte 8
  deriving DecidableEq, Repr

/-- Take the trace; no state changes. -/
def State.trace (s : State) : TraceView where
  pc   := s.pc
  fl   := s.fl
  next := [0, 1, 2].map fun k =>
    if s.pc.toNat + k < memSize then some (Memory.read s.mem (s.pc.toNat + k)) else none
  regs := s.regs

/-- The trace in the open layout `TRACE_LAYOUT`. -/
def TraceView.text (t : TraceView) : List Byte := Config.traceLayout t.pc t.fl t.next t.regs.toList

end Sys2Proof.Machine
end

