-- ==== Sys2Proof/Machine/Step.lean ====
section
/-! DEFINITION. One step of the machine: one whole cycle, step 0 included (spec/40_cycle_nop_hlt.md R98, R99). -/

namespace Sys2Proof.Machine

/-- R99, with the external requests of this boundary taken from the state. A fault ends the cycle in the Faulted state
that R97 describes, as a next state. A Halted machine executes nothing and keeps its state (R36; DESIGN CHOICE, log
entry 5); a Faulted machine answers its recorded fault for good (R200; log entry 6). -/
def step (s : State) : Host.Outcome State Fault Refusal :=
  match s.runState with
  | .halted => .next s
  | .faulted r => .fault r.cause
  | .running =>
    match s.boundary with
    | .error t => .next t
    | .ok s =>
      match s.fetchDecode with
      | .error t => .next t
      | .ok (i, s) => exec i s

/-- The state with the instruction of one table word stored at pc, where the next fetch reads; bits at and above
`nbits` are 0, and bytes beyond address 255 are not stored. -/
def State.withFetchWord (s : State) (nbits w : Nat) : State :=
  { s with mem := Memory.writeBytes s.mem s.pc.toNat (tableBytes nbits w) }

end Sys2Proof.Machine
end

