-- ==== Sys2Proof/Safety.lean ====
section
/-! DEFINITION. The terms the statements are written in: what a handler leaves unchanged, the shapes of effect that many
instructions share, and the invariant of the machine. -/

namespace Sys2Proof.Machine

/-! ### Frames -/

/-- Every register but the listed ones is unchanged. -/
abbrev KeepsRegs (s t : State) (written : List RegIdx) : Prop := ∀ r, r ∉ written → t.reg r = s.reg r

/-- Every byte of memory outside the listed addresses reads as before. -/
abbrev KeepsMem (s t : State) (stored : List Byte) : Prop := ∀ x, x ∉ stored → t.memRead x = s.memRead x

/-- The controller state, the run state with its fault record, the latches of the cycle and the external requests to
come are unchanged. -/
structure KeepsControl (s t : State) : Prop where
  ictl     : t.ictl = s.ictl
  runState : t.runState = s.runState
  a0       : t.a0 = s.a0
  ir       : t.ir = s.ir
  opA      : t.opA = s.opA
  opB      : t.opB = s.opB
  ext      : t.ext = s.ext

/-- The one effect is that register d holds v: every other register, all of memory, pc, FL, the console history and the
control state are unchanged. -/
structure RegEffect (s t : State) (d : RegIdx) (v : Byte) : Prop where
  value   : t.reg d = v
  regs    : KeepsRegs s t [d]
  mem     : KeepsMem s t []
  pc      : t.pc = s.pc
  fl      : t.fl = s.fl
  console : t.console = s.console
  control : KeepsControl s t

/-- The one effect is that pc holds v. -/
structure PcEffect (s t : State) (v : PcWord) : Prop where
  value   : t.pc = v
  regs    : KeepsRegs s t []
  mem     : KeepsMem s t []
  fl      : t.fl = s.fl
  console : t.console = s.console
  control : KeepsControl s t

/-- The state a fault leaves (R200): the run state is Faulted with the record, and all else is as it was. -/
def faultedState (s : State) (cause : Fault) (addr : PcWord) (opcode : Option Byte) : State :=
  { s with runState := .faulted ⟨cause, addr, opcode⟩ }

/-- The handler faults with `cause`, recording a0 and IR, and does nothing else (R97). -/
abbrev HandlerFaults (i : Instr) (s : State) (cause : Fault) : Prop :=
  exec i s = .next (faultedState s cause s.a0 (some s.ir))

/-! ### What a handler may write -/

/-- The handlers that may write pc: CALL, RET, JMP, the conditional jumps and IRET (R28). -/
def transfersControl : Instr → Bool
  | .call _ | .ret | .jmp _ | .jeq _ | .jne _ | .jgt _ | .jlt _ | .jle _ | .jge _ | .iret => true
  | .nop | .hlt | .ldi _ _ | .ld _ _ | .st _ _ | .prn _ | .pra _ | .add _ _ | .sub _ _ | .mul _ _ | .div _ _
  | .mod _ _ | .cmp _ _ | .and _ _ | .or _ _ | .xor _ _ | .shl _ _ | .shr _ _ | .not _ | .inc _ | .dec _ | .push _
  | .pop _ | .int _ => false

/-- The one address a handler may store to: ST the address in x[a], PUSH and CALL the byte below the top of the stack; no
other handler writes memory (R54). -/
def storedAddr (i : Instr) (s : State) : Option Byte :=
  match i with
  | .st a _ => (regIndex a).map s.reg
  | .push _ | .call _ => some (s.sp - 1)
  | .nop | .hlt | .ldi _ _ | .ld _ _ | .prn _ | .pra _ | .add _ _ | .sub _ _ | .mul _ _ | .div _ _ | .mod _ _
  | .cmp _ _ | .and _ _ | .or _ _ | .xor _ _ | .shl _ _ | .shr _ _ | .not _ | .inc _ | .dec _ | .pop _ | .ret
  | .jmp _ | .jeq _ | .jne _ | .jgt _ | .jlt _ | .jle _ | .jge _ | .int _ | .iret => none

/-! ### The invariant -/

/-- One of the 34 opcode bytes (R76). -/
def knownOpcode (ir : Byte) : Bool := (dispatch ir 0 0).isSome

/-- What a fault record can hold, the table of R201: an opcode byte and an address inside memory, or, for a fault of the
fetch or of interrupt entry, no opcode and the address 256. -/
structure FaultRecord.Legal (r : FaultRecord) : Prop where
  fetched     : ∀ ir, r.opcode = some ir → r.addr.toNat ≤ 255
  notFetched  : r.opcode = none → r.cause = .addressOutOfRange ∧ r.addr = 256
  unknown     : r.cause = .unknownOpcode → ∃ ir, r.opcode = some ir ∧ knownOpcode ir = false
  divide      : r.cause = .divideByZero → r.opcode = some 0xA3 ∨ r.opcode = some 0xA4
  outOfRange  : r.cause = .addressOutOfRange → ∀ ir, r.opcode = some ir → knownOpcode ir = true
  malformed   : r.cause = .malformedInstructionStream →
    ∃ ir, r.opcode = some ir ∧ 255 < r.addr.toNat + operandCount ir

/-- The invariant of the machine: memory is in canonical form, pc is 0 to 256 (R29), and a fault record is one that the
table of R201 allows. -/
structure State.Inv (s : State) : Prop where
  mem    : Memory.wf s.mem
  pc     : s.pc.toNat ≤ 256
  record : ∀ r, s.runState = .faulted r → r.Legal

/-! ### Bytes in memory -/

/-- The bytes of memory from an address up to address 255. -/
def State.bytesFrom (s : State) (a : Nat) : List Byte :=
  (List.range (memSize - a)).map fun k => Memory.read s.mem (a + k)

end Sys2Proof.Machine
end

