-- ==== Sys2Proof/Certificates/Slice0/Obligations.lean ====
section
/-! DEFINITION. The statements about the LS-8 core. In all of them `regByte r` is the operand byte 0 to 7 that names
register r; what the other bytes do in a register position is a clause of its own. When a handler runs, step 4 of the
cycle has already advanced pc, so `s.pc` is the address of the next sequential instruction. -/

open Sys2Proof Sys2Proof.Machine

/-! ### NOP, HLT and the end of a run -/

/-- R103, whole: NOP is the byte 0x00 and has no effect. -/
def Obligations.NopHasNoEffect : Prop :=
  encode .nop = [0x00] ∧ ∀ s : State, exec .nop s = .next s

/-- R104: HLT is the byte 0x01 and makes the run state Halted; nothing else changes. -/
def Obligations.HltHaltsAndKeepsAllElse : Prop :=
  encode .hlt = [0x01] ∧ ∀ s : State, exec .hlt s = .next { s with runState := .halted }

/-- R36, R231: Halted and Faulted are terminal. The model's choice (log entries 5 and 6): a Halted machine answers its own
unchanged state, a Faulted one the recorded cause as a fault. -/
def Obligations.HaltedAndFaultedAreTerminal : Prop :=
  ∀ s : State, (s.runState = .halted → step s = .next s) ∧
    (∀ r, s.runState = .faulted r → step s = .fault r.cause)

/-- R100: from Running, a cycle leaves the machine Running, Faulted, or Halted by an executed HLT. -/
def Obligations.LoopEndsOnlyByHltOrFault : Prop :=
  ∀ s t : State, s.runState = .running → step s = .next t →
    t.runState = .running ∨ (∃ r, t.runState = .faulted r) ∨
      ∃ u v, s.boundary = .ok u ∧ u.fetchDecode = .ok (.hlt, v) ∧ t = { v with runState := .halted }

/-- The step is total while Running (93_implementation_defined.md, end of part 1: each state leads to one next state or to
one of the four faults). That a cycle which faults answers a next state too is the model's choice, log entry 6. -/
def Obligations.RunningMachineAlwaysSteps : Prop :=
  ∀ s : State, s.runState = .running → ∃ t, step s = .next t

/-! ### Data movement and the console -/

/-- R110, whole. -/
def Obligations.LdiLoadsImmediate : Prop :=
  (∀ a b, encode (.ldi a b) = [0x82, a, b]) ∧
  (∀ (s : State) (d : RegIdx) (b : Byte), ∃ t, exec (.ldi (regByte d) b) s = .next t ∧ RegEffect s t d b) ∧
  ∀ (s : State) (a b : Byte), 8 ≤ a.toNat → HandlerFaults (.ldi a b) s .addressOutOfRange

/-- R111, whole; `d = p` is allowed and the address is the old value of the register. -/
def Obligations.LdLoadsAddressedByte : Prop :=
  (∀ a b, encode (.ld a b) = [0x83, a, b]) ∧
  (∀ (s : State) (d p : RegIdx), ∃ t, exec (.ld (regByte d) (regByte p)) s = .next t ∧
    RegEffect s t d (s.memRead (s.reg p))) ∧
  ∀ (s : State) (a b : Byte), 8 ≤ a.toNat ∨ 8 ≤ b.toNat → HandlerFaults (.ld a b) s .addressOutOfRange

/-- R112, whole: the one byte stored to is at the address in x[a], and no register changes. -/
def Obligations.StStoresOneByte : Prop :=
  (∀ a b, encode (.st a b) = [0x84, a, b]) ∧
  (∀ (s : State) (p q : RegIdx), ∃ t, exec (.st (regByte p) (regByte q)) s = .next t ∧
    t.memRead (s.reg p) = s.reg q ∧ KeepsMem s t [s.reg p] ∧ KeepsRegs s t [] ∧ t.pc = s.pc ∧ t.fl = s.fl ∧
    t.console = s.console ∧ KeepsControl s t) ∧
  ∀ (s : State) (a b : Byte), 8 ≤ a.toNat ∨ 8 ≤ b.toNat → HandlerFaults (.st a b) s .addressOutOfRange

/-- R120 to R122: PRN and PRA append one event to the console history and change nothing else. -/
def Obligations.PrintAppendsOneEvent : Prop :=
  (∀ a, encode (.prn a) = [0x47, a] ∧ encode (.pra a) = [0x48, a]) ∧
  (∀ (s : State) (p : RegIdx),
    exec (.prn (regByte p)) s = .next { s with console := s.console ++ [⟨.prn, s.reg p⟩] } ∧
    exec (.pra (regByte p)) s = .next { s with console := s.console ++ [⟨.pra, s.reg p⟩] }) ∧
  ∀ (s : State) (a : Byte), 8 ≤ a.toNat →
    HandlerFaults (.prn a) s .addressOutOfRange ∧ HandlerFaults (.pra a) s .addressOutOfRange

/-- R120, the rendering of a PRN event: decimal digits that denote the unsigned value, the first of them not 0 unless it
is the only one, and then one line feed (the line feed is decision D19). -/
def Obligations.PrnRendersAsDecimal : Prop :=
  ∀ v : Byte, ∃ ds : List Byte, ConsoleEvent.render ⟨.prn, v⟩ = ds ++ [0x0A] ∧
    (∀ d ∈ ds, 0x30 ≤ d.toNat ∧ d.toNat ≤ 0x39) ∧
    ds.foldl (fun n d => 10 * n + (d.toNat - 0x30)) 0 = v.toNat ∧
    (ds.head? = some 0x30 → ds = [0x30]) ∧ ds ≠ []

/-- R37: the console history is only ever appended to, at most one event in a step. -/
def Obligations.ConsoleHistoryOnlyGrows : Prop :=
  ∀ s t : State, step s = .next t → ∃ es, t.console = s.console ++ es ∧ es.length ≤ 1

/-! ### The ALU -/

/-- R132, R135 to R137: the exact sum, difference and product, modulo 256. The opcode bytes are decision D1. -/
def Obligations.AddSubMulWrapModulo256 : Prop :=
  (∀ a b, encode (.add a b) = [0xA0, a, b] ∧ encode (.sub a b) = [0xA1, a, b] ∧ encode (.mul a b) = [0xA2, a, b]) ∧
  (∀ (s : State) (d p : RegIdx),
    (∃ t v, exec (.add (regByte d) (regByte p)) s = .next t ∧ RegEffect s t d v ∧
      v.toNat = ((s.reg d).toNat + (s.reg p).toNat) % 256) ∧
    (∃ t v, exec (.sub (regByte d) (regByte p)) s = .next t ∧ RegEffect s t d v ∧
      (v.toNat : Int) = ((s.reg d).toNat - (s.reg p).toNat : Int) % 256) ∧
    (∃ t v, exec (.mul (regByte d) (regByte p)) s = .next t ∧ RegEffect s t d v ∧
      v.toNat = (s.reg d).toNat * (s.reg p).toNat % 256)) ∧
  ∀ (s : State) (a b : Byte), 8 ≤ a.toNat ∨ 8 ≤ b.toNat →
    HandlerFaults (.add a b) s .addressOutOfRange ∧ HandlerFaults (.sub a b) s .addressOutOfRange ∧
    HandlerFaults (.mul a b) s .addressOutOfRange

/-- R138, R139: with a divisor that is not 0, the quotient and the remainder of the unsigned values (decision D14). The
opcode bytes are decision D1. -/
def Obligations.DivModGiveQuotientAndRemainder : Prop :=
  (∀ a b, encode (.div a b) = [0xA3, a, b] ∧ encode (.mod a b) = [0xA4, a, b]) ∧
  ∀ (s : State) (d p : RegIdx), s.reg p ≠ 0 →
    (∃ t v, exec (.div (regByte d) (regByte p)) s = .next t ∧ RegEffect s t d v ∧
      v.toNat = (s.reg d).toNat / (s.reg p).toNat) ∧
    (∃ t v, exec (.mod (regByte d) (regByte p)) s = .next t ∧ RegEffect s t d v ∧
      v.toNat = (s.reg d).toNat % (s.reg p).toNat)

/-- R203, whole: a zero divisor raises DivideByZero after the register checks and changes nothing; no other handler
raises it. -/
def Obligations.OnlyDivModRaiseDivideByZero : Prop :=
  (∀ (s : State) (d p : RegIdx), s.reg p = 0 →
    HandlerFaults (.div (regByte d) (regByte p)) s .divideByZero ∧
    HandlerFaults (.mod (regByte d) (regByte p)) s .divideByZero) ∧
  (∀ (s : State) (a b : Byte), 8 ≤ a.toNat ∨ 8 ≤ b.toNat →
    HandlerFaults (.div a b) s .addressOutOfRange ∧ HandlerFaults (.mod a b) s .addressOutOfRange) ∧
  ∀ (i : Instr) (s t : State) (r : FaultRecord), s.runState = .running → exec i s = .next t →
    t.runState = .faulted r → r.cause = .divideByZero → ∃ a b, i = .div a b ∨ i = .mod a b

/-- R140 to R142: bit by bit. The opcode bytes are decision D1. -/
def Obligations.BitwiseOperationsBitByBit : Prop :=
  (∀ a b, encode (.and a b) = [0xA8, a, b] ∧ encode (.or a b) = [0xAA, a, b] ∧ encode (.xor a b) = [0xAB, a, b]) ∧
  (∀ (s : State) (d p : RegIdx),
    (∃ t v, exec (.and (regByte d) (regByte p)) s = .next t ∧ RegEffect s t d v ∧
      ∀ k, v.getLsbD k = ((s.reg d).getLsbD k && (s.reg p).getLsbD k)) ∧
    (∃ t v, exec (.or (regByte d) (regByte p)) s = .next t ∧ RegEffect s t d v ∧
      ∀ k, v.getLsbD k = ((s.reg d).getLsbD k || (s.reg p).getLsbD k)) ∧
    (∃ t v, exec (.xor (regByte d) (regByte p)) s = .next t ∧ RegEffect s t d v ∧
      ∀ k, v.getLsbD k = ((s.reg d).getLsbD k ^^ (s.reg p).getLsbD k))) ∧
  ∀ (s : State) (a b : Byte), 8 ≤ a.toNat ∨ 8 ≤ b.toNat →
    HandlerFaults (.and a b) s .addressOutOfRange ∧ HandlerFaults (.or a b) s .addressOutOfRange ∧
    HandlerFaults (.xor a b) s .addressOutOfRange

/-- R143, R144: the whole byte is the count, zeros are shifted in, 8 or more gives 0 (decision D13). The opcode bytes are
decision D1. -/
def Obligations.ShiftsUseTheWholeCount : Prop :=
  (∀ a b, encode (.shl a b) = [0xAC, a, b] ∧ encode (.shr a b) = [0xAD, a, b]) ∧
  (∀ (s : State) (d p : RegIdx),
    (∃ t v, exec (.shl (regByte d) (regByte p)) s = .next t ∧ RegEffect s t d v ∧
      v.toNat = (s.reg d).toNat * 2 ^ (s.reg p).toNat % 256 ∧ (8 ≤ (s.reg p).toNat → v = 0)) ∧
    (∃ t v, exec (.shr (regByte d) (regByte p)) s = .next t ∧ RegEffect s t d v ∧
      v.toNat = (s.reg d).toNat / 2 ^ (s.reg p).toNat ∧ (8 ≤ (s.reg p).toNat → v = 0))) ∧
  ∀ (s : State) (a b : Byte), 8 ≤ a.toNat ∨ 8 ≤ b.toNat →
    HandlerFaults (.shl a b) s .addressOutOfRange ∧ HandlerFaults (.shr a b) s .addressOutOfRange

/-- R145: CMP writes the whole of FL by the unsigned order of the operands (decision D14) and nothing else. The opcode
byte is decision D1. -/
def Obligations.CmpWritesExactlyOneFlag : Prop :=
  (∀ a b, encode (.cmp a b) = [0xA7, a, b]) ∧
  (∀ (s : State) (p q : RegIdx), exec (.cmp (regByte p) (regByte q)) s = .next { s with
    fl := if (s.reg p).toNat < (s.reg q).toNat then 0b00000100
      else if (s.reg q).toNat < (s.reg p).toNat then 0b00000010 else 0b00000001 }) ∧
  ∀ (s : State) (a b : Byte), 8 ≤ a.toNat ∨ 8 ≤ b.toNat → HandlerFaults (.cmp a b) s .addressOutOfRange

/-- R150 to R152: complement, increment and decrement modulo 256. The opcode bytes are decision D1. -/
def Obligations.NotIncDecOnOneRegister : Prop :=
  (∀ a, encode (.not a) = [0x69, a] ∧ encode (.inc a) = [0x65, a] ∧ encode (.dec a) = [0x66, a]) ∧
  (∀ (s : State) (d : RegIdx),
    (∃ t v, exec (.not (regByte d)) s = .next t ∧ RegEffect s t d v ∧ v.toNat = 255 - (s.reg d).toNat) ∧
    (∃ t v, exec (.inc (regByte d)) s = .next t ∧ RegEffect s t d v ∧ v.toNat = ((s.reg d).toNat + 1) % 256) ∧
    (∃ t v, exec (.dec (regByte d)) s = .next t ∧ RegEffect s t d v ∧
      (v.toNat : Int) = ((s.reg d).toNat - 1 : Int) % 256)) ∧
  ∀ (s : State) (a : Byte), 8 ≤ a.toNat →
    HandlerFaults (.not a) s .addressOutOfRange ∧ HandlerFaults (.inc a) s .addressOutOfRange ∧
    HandlerFaults (.dec a) s .addressOutOfRange

/-- R31, R133: no handler but CMP's and IRET's writes FL, whatever its result. -/
def Obligations.OnlyCmpAndIretWriteFlags : Prop :=
  ∀ (i : Instr) (s t : State), exec i s = .next t → (∀ a b, i ≠ .cmp a b) → i ≠ .iret → t.fl = s.fl

/-! ### The stack -/

/-- R160 to R162: the two stack primitives, SP modulo 256, the popped byte still in memory. -/
def Obligations.StackPrimitivesMoveSpByOne : Prop :=
  ∀ (s : State) (v : Byte),
    ((s.push v).sp = s.sp - 1 ∧ (s.push v).memRead (s.sp - 1) = v ∧ KeepsRegs s (s.push v) [7] ∧
      KeepsMem s (s.push v) [s.sp - 1] ∧ (s.push v).pc = s.pc ∧ (s.push v).fl = s.fl ∧
      (s.push v).console = s.console ∧ KeepsControl s (s.push v)) ∧
    s.popValue = s.memRead s.sp ∧ RegEffect s s.popState 7 (s.sp + 1)

/-- R163: PUSH; for `PUSH R7` the new SP is the value pushed (decision D15). The byte stored to is at SP - 1. -/
def Obligations.PushDecrementsThenWrites : Prop :=
  (∀ a, encode (.push a) = [0x45, a]) ∧
  (∀ (s : State) (p : RegIdx), ∃ t, exec (.push (regByte p)) s = .next t ∧ t.sp = s.sp - 1 ∧
    t.memRead (s.sp - 1) = (if p = 7 then s.sp - 1 else s.reg p) ∧ KeepsRegs s t [7] ∧ KeepsMem s t [s.sp - 1] ∧
    t.pc = s.pc ∧ t.fl = s.fl ∧ t.console = s.console ∧ KeepsControl s t) ∧
  ∀ (s : State) (a : Byte), 8 ≤ a.toNat → HandlerFaults (.push a) s .addressOutOfRange

/-- R164: POP; `POP R7` ends with the popped byte plus one (decision D15). Memory does not change. -/
def Obligations.PopReadsThenIncrements : Prop :=
  (∀ a, encode (.pop a) = [0x46, a]) ∧
  (∀ (s : State) (p : RegIdx), ∃ t, exec (.pop (regByte p)) s = .next t ∧
    (p ≠ 7 → t.reg p = s.memRead s.sp ∧ t.sp = s.sp + 1) ∧ (p = 7 → t.sp = s.memRead s.sp + 1) ∧
    KeepsRegs s t [p, 7] ∧ KeepsMem s t [] ∧ t.pc = s.pc ∧ t.fl = s.fl ∧ t.console = s.console ∧ KeepsControl s t) ∧
  ∀ (s : State) (a : Byte), 8 ≤ a.toNat → HandlerFaults (.pop a) s .addressOutOfRange

/-- R165, the round-trip law, for every register, R7 among them (decision D15): PUSH then POP leaves every register, and
all else but the byte below the top of the stack, as it was. -/
def Obligations.PushThenPopRestores : Prop :=
  ∀ (s : State) (p : RegIdx), ∃ t u, exec (.push (regByte p)) s = .next t ∧ exec (.pop (regByte p)) t = .next u ∧
    KeepsRegs s u [] ∧ KeepsMem s u [s.sp - 1] ∧ u.pc = s.pc ∧ u.fl = s.fl ∧ u.console = s.console ∧ KeepsControl s u

/-! ### Control transfer -/

/-- R170: CALL pushes the return address, the pc that step 4 left, and goes to x[a], read after the push (decision D15);
a return address of 256 faults and pushes nothing (decision D9). The byte stored to is at SP - 1. -/
def Obligations.CallPushesReturnAddress : Prop :=
  (∀ a, encode (.call a) = [0x50, a]) ∧
  (∀ (s : State) (p : RegIdx), s.pc.toNat ≤ 255 → ∃ t, exec (.call (regByte p)) s = .next t ∧
    (t.memRead (s.sp - 1)).toNat = s.pc.toNat ∧ t.sp = s.sp - 1 ∧
    t.pc.toNat = (if p = 7 then s.sp - 1 else s.reg p).toNat ∧ KeepsRegs s t [7] ∧ KeepsMem s t [s.sp - 1] ∧
    t.fl = s.fl ∧ t.console = s.console ∧ KeepsControl s t) ∧
  (∀ (s : State) (p : RegIdx), 255 < s.pc.toNat → HandlerFaults (.call (regByte p)) s .addressOutOfRange) ∧
  ∀ (s : State) (a : Byte), 8 ≤ a.toNat → HandlerFaults (.call a) s .addressOutOfRange

/-- R171, whole. -/
def Obligations.RetPopsPc : Prop :=
  encode .ret = [0x11] ∧
  ∀ s : State, ∃ t, exec .ret s = .next t ∧ t.pc.toNat = (s.memRead s.sp).toNat ∧ t.sp = s.sp + 1 ∧
    KeepsRegs s t [7] ∧ KeepsMem s t [] ∧ t.fl = s.fl ∧ t.console = s.console ∧ KeepsControl s t

/-- R172, whole. -/
def Obligations.JmpGoesToRegister : Prop :=
  (∀ a, encode (.jmp a) = [0x54, a]) ∧
  (∀ (s : State) (p : RegIdx), ∃ t v, exec (.jmp (regByte p)) s = .next t ∧ PcEffect s t v ∧
    v.toNat = (s.reg p).toNat) ∧
  ∀ (s : State) (a : Byte), 8 ≤ a.toNat → HandlerFaults (.jmp a) s .addressOutOfRange

/-- R174 to R180: each conditional jump tests one bit of FL, for every value of FL (decision D26), and writes pc alone;
not taken, it leaves everything. The opcode bytes are decision D1. -/
def Obligations.ConditionalJumpsTestOneBit : Prop :=
  (∀ a, encode (.jeq a) = [0x55, a] ∧ encode (.jne a) = [0x56, a] ∧ encode (.jgt a) = [0x57, a] ∧
    encode (.jlt a) = [0x58, a] ∧ encode (.jle a) = [0x59, a] ∧ encode (.jge a) = [0x5A, a]) ∧
  (∀ (s : State) (p : RegIdx), ∃ v : PcWord, v.toNat = (s.reg p).toNat ∧
    exec (.jeq (regByte p)) s = .next (if s.fl.getLsbD 0 = true then { s with pc := v } else s) ∧
    exec (.jne (regByte p)) s = .next (if s.fl.getLsbD 0 = false then { s with pc := v } else s) ∧
    exec (.jgt (regByte p)) s = .next (if s.fl.getLsbD 1 = true then { s with pc := v } else s) ∧
    exec (.jlt (regByte p)) s = .next (if s.fl.getLsbD 2 = true then { s with pc := v } else s) ∧
    exec (.jge (regByte p)) s = .next (if s.fl.getLsbD 2 = false then { s with pc := v } else s) ∧
    exec (.jle (regByte p)) s = .next (if s.fl.getLsbD 1 = false then { s with pc := v } else s)) ∧
  ∀ (s : State) (a : Byte), 8 ≤ a.toNat →
    HandlerFaults (.jeq a) s .addressOutOfRange ∧ HandlerFaults (.jne a) s .addressOutOfRange ∧
    HandlerFaults (.jgt a) s .addressOutOfRange ∧ HandlerFaults (.jlt a) s .addressOutOfRange ∧
    HandlerFaults (.jle a) s .addressOutOfRange ∧ HandlerFaults (.jge a) s .addressOutOfRange

/-- R174: after a CMP, the six jumps decide by the unsigned comparison of the two registers compared. -/
def Obligations.JumpsAfterCmpFollowTheComparison : Prop :=
  ∀ (s : State) (p q r : RegIdx), ∃ t, exec (.cmp (regByte p) (regByte q)) s = .next t ∧
    ∀ a b : Nat, a = (s.reg p).toNat → b = (s.reg q).toNat →
      exec (.jeq (regByte r)) t = (if a = b then exec (.jmp (regByte r)) t else exec .nop t) ∧
      exec (.jne (regByte r)) t = (if a ≠ b then exec (.jmp (regByte r)) t else exec .nop t) ∧
      exec (.jgt (regByte r)) t = (if a > b then exec (.jmp (regByte r)) t else exec .nop t) ∧
      exec (.jlt (regByte r)) t = (if a < b then exec (.jmp (regByte r)) t else exec .nop t) ∧
      exec (.jge (regByte r)) t = (if a ≥ b then exec (.jmp (regByte r)) t else exec .nop t) ∧
      exec (.jle (regByte r)) t = (if a ≤ b then exec (.jmp (regByte r)) t else exec .nop t)

/-- R181, the CALL and RET law: a RET with SP and the return address as CALL left them resumes after the CALL with SP
restored; `h` is any state the subroutine may have reached. -/
def Obligations.CallThenRetResumes : Prop :=
  ∀ (s : State) (p : RegIdx), s.pc.toNat ≤ 255 → ∃ t, exec (.call (regByte p)) s = .next t ∧
    ∀ h : State, h.sp = t.sp → h.memRead t.sp = t.memRead t.sp →
      ∃ u, exec .ret h = .next u ∧ u.pc = s.pc ∧ u.sp = s.sp

/-- R28: a handler that is no control transfer leaves pc alone, and after any write of pc by a handler pc is at most
255. -/
def Obligations.OnlyControlTransfersWritePc : Prop :=
  ∀ (i : Instr) (s t : State), exec i s = .next t →
    (transfersControl i = false → t.pc = s.pc) ∧ (t.pc ≠ s.pc → t.pc.toNat ≤ 255)

/-! ### INT, IRET and the interrupt controller -/

/-- R190: INT sets the pending bit of the line x[a] holds and does nothing else; a number above 7 faults (decision
D11). -/
def Obligations.IntMakesTheLinePending : Prop :=
  (∀ a, encode (.int a) = [0x52, a]) ∧
  (∀ (s : State) (p : RegIdx), (s.reg p).toNat ≤ 7 → ∃ t v, exec (.int (regByte p)) s = .next t ∧ RegEffect s t 6 v ∧
    ∀ k, k < 8 → v.getLsbD k = (s.is.getLsbD k || decide (k = (s.reg p).toNat))) ∧
  (∀ (s : State) (p : RegIdx), 8 ≤ (s.reg p).toNat → HandlerFaults (.int (regByte p)) s .addressOutOfRange) ∧
  ∀ (s : State) (a : Byte), 8 ≤ a.toNat → HandlerFaults (.int a) s .addressOutOfRange

/-- R191: IRET pops registers 6 down to 0, then FL, then pc, whatever the controller state, and makes it Normal
(decisions D4 and D12). -/
def Obligations.IretPopsTheWholeFrame : Prop :=
  encode .iret = [0x13] ∧
  ∀ s : State, ∃ t, exec .iret s = .next t ∧
    t.reg 6 = s.memRead s.sp ∧ t.reg 5 = s.memRead (s.sp + 1) ∧ t.reg 4 = s.memRead (s.sp + 2) ∧
    t.reg 3 = s.memRead (s.sp + 3) ∧ t.reg 2 = s.memRead (s.sp + 4) ∧ t.reg 1 = s.memRead (s.sp + 5) ∧
    t.reg 0 = s.memRead (s.sp + 6) ∧ t.fl = s.memRead (s.sp + 7) ∧
    t.pc.toNat = (s.memRead (s.sp + 8)).toNat ∧ t.sp = s.sp + 9 ∧ t.ictl = .normal ∧ KeepsMem s t [] ∧
    t.console = s.console ∧ t.runState = s.runState ∧ t.a0 = s.a0 ∧ t.ir = s.ir ∧ t.opA = s.opA ∧ t.opB = s.opB ∧
    t.ext = s.ext

/-- R212, R213: a boundary at which no enabled line is pending after the merge, or the controller is Handling, merges the
requests of that boundary into IS, uses them up and does nothing else (decisions D6 and D27; the schedule `ext` is log
entry 4). -/
def Obligations.QuietBoundaryOnlyMergesRequests : Prop :=
  ∀ s : State, (s.ictl = .handling ∨ s.im &&& (s.is ||| s.ext.headD 0) = 0) →
    ∃ t, s.boundary = .ok t ∧ t.is = s.is ||| s.ext.headD 0 ∧ KeepsRegs s t [6] ∧ t.ext = s.ext.tail ∧
      KeepsMem s t [] ∧ t.pc = s.pc ∧ t.fl = s.fl ∧ t.console = s.console ∧ t.ictl = s.ictl ∧
      t.runState = s.runState ∧ t.a0 = s.a0 ∧ t.ir = s.ir ∧ t.opA = s.opA ∧ t.opB = s.opB

/-- R214, R216 to R218: with the controller Normal and pc at most 255, the lowest line pending and enabled after the merge is
taken: the whole frame, and all that entry leaves (decisions D3 and D7, log entry 10; D4 and D5, log entry 16). The
schedule `ext`, its head merged and its tail left, is the model's choice, log entry 4. -/
def Obligations.BoundaryEntersLowestLine : Prop :=
  ∀ (s : State) (n : Line) (m : Byte), s.ictl = .normal → s.pc.toNat ≤ 255 → m = s.is ||| s.ext.headD 0 →
    (s.im &&& m).getLsbD n.val = true → (∀ k : Line, k < n → (s.im &&& m).getLsbD k.val = false) →
    ∃ t, s.boundary = .ok t ∧ t.ictl = .handling ∧
      (∀ k, k < 8 → t.is.getLsbD k = (m.getLsbD k && decide (k ≠ n.val))) ∧ KeepsRegs s t [6, 7] ∧
      t.sp = s.sp - 9 ∧
      (t.memRead (s.sp - 1)).toNat = s.pc.toNat ∧ t.memRead (s.sp - 2) = s.fl ∧
      t.memRead (s.sp - 3) = s.reg 0 ∧ t.memRead (s.sp - 4) = s.reg 1 ∧ t.memRead (s.sp - 5) = s.reg 2 ∧
      t.memRead (s.sp - 6) = s.reg 3 ∧ t.memRead (s.sp - 7) = s.reg 4 ∧ t.memRead (s.sp - 8) = s.reg 5 ∧
      t.memRead (s.sp - 9) = t.is ∧
      KeepsMem s t [s.sp - 1, s.sp - 2, s.sp - 3, s.sp - 4, s.sp - 5, s.sp - 6, s.sp - 7, s.sp - 8, s.sp - 9] ∧
      t.pc.toNat = (t.memRead (BitVec.ofNat 8 (0xF8 + n.val))).toNat ∧ t.fl = s.fl ∧ t.console = s.console ∧
      t.runState = s.runState ∧ t.a0 = s.a0 ∧ t.ir = s.ir ∧ t.opA = s.opA ∧ t.opB = s.opB ∧ t.ext = s.ext.tail

/-- R216, R97: an interrupt that becomes due while pc is 256 faults instead of being taken (decision D9, log entry 16); the
requests have been merged and nothing else has changed. The schedule `ext`, its head merged and its tail left, is the
model's choice, log entry 4. -/
def Obligations.EntryWithPc256Faults : Prop :=
  ∀ s : State, s.runState = .running → s.ictl = .normal → 255 < s.pc.toNat →
    s.im &&& (s.is ||| s.ext.headD 0) ≠ 0 →
    ∃ t, step s = .next t ∧ t.runState = .faulted ⟨.addressOutOfRange, s.pc, none⟩ ∧
      t.is = s.is ||| s.ext.headD 0 ∧ KeepsRegs s t [6] ∧ t.ext = s.ext.tail ∧ KeepsMem s t [] ∧ t.pc = s.pc ∧
      t.fl = s.fl ∧ t.console = s.console ∧ t.ictl = s.ictl ∧ t.a0 = s.a0 ∧ t.ir = s.ir ∧ t.opA = s.opA ∧
      t.opB = s.opB

/-- R220: while Handling, a boundary takes nothing, whatever IM holds; and no instruction but IRET writes the controller
state. -/
def Obligations.InterruptsDoNotNest : Prop :=
  (∀ s : State, s.ictl = .handling → s.boundary = .ok s.mergeExternal ∧ s.mergeExternal.ictl = .handling) ∧
  ∀ (i : Instr) (s t : State), exec i s = .next t → i ≠ .iret → t.ictl = s.ictl

/-- R190, R213, R222: INT of an enabled line, with nothing else pending and enabled, no external request and the controller
Normal, is taken at the next boundary (decision D6, log entry 16); the pc saved is that of the instruction after the INT,
the IS saved lacks the bit (decision D5, log entry 16), and the vector is at 0xF8 + n (decision D3, log entry 10). The
schedule `ext` is the model's choice, log entry 4. -/
def Obligations.IntIsTakenAtNextBoundary : Prop :=
  ∀ (s : State) (p : RegIdx), (s.reg p).toNat ≤ 7 → s.im.getLsbD (s.reg p).toNat = true → s.im &&& s.is = 0 →
    s.ext.headD 0 = 0 → s.ictl = .normal → s.pc.toNat ≤ 255 →
    ∃ t u, exec (.int (regByte p)) s = .next t ∧ t.boundary = .ok u ∧ u.ictl = .handling ∧ u.is = s.is ∧
      u.sp = s.sp - 9 ∧ (u.memRead (s.sp - 1)).toNat = s.pc.toNat ∧ u.memRead (s.sp - 9) = s.is ∧
      u.pc.toNat = (u.memRead (BitVec.ofNat 8 (0xF8 + (s.reg p).toNat))).toNat

/-- R219 (a): after an interrupt of line n, an IRET that finds SP and the nine bytes of the frame as entry left them resumes
with every register, FL, pc and SP as they were, but for the taken line's bit of IS, and the controller Normal; `h` is any
state the handler may have reached. The order of the frame is decision D4, the bit cleared before the pushes is D5 (log
entry 16), and the schedule `ext` is the model's choice, log entry 4. -/
def Obligations.EntryThenIretRestores : Prop :=
  ∀ (s t h : State) (n : Line), s.mergeExternal.recognized = some n → s.boundary = .ok t → h.sp = t.sp →
    (∀ k, k < 9 → h.memRead (t.sp + BitVec.ofNat 8 k) = t.memRead (t.sp + BitVec.ofNat 8 k)) →
    ∃ u, exec .iret h = .next u ∧ KeepsRegs s u [6] ∧
      (∀ k, k < 8 → u.is.getLsbD k = ((s.is ||| s.ext.headD 0).getLsbD k && decide (k ≠ n.val))) ∧
      u.fl = s.fl ∧ u.pc = s.pc ∧ u.ictl = .normal ∧ KeepsMem h u []

/-! ### Decoding and the cycle -/

/-- A few words written out bit by bit from R76 and R77, one or more of each family, decode to what they stand for. The
opcode values of MUL, CMP, NOT and JGE are decision D1 (PRESUMED, log entry 9). -/
def Obligations.SampleWordsDecode : Prop :=
  decode [0b00000000] = .ok (.nop, []) ∧ decode [0b00000001] = .ok (.hlt, []) ∧
  decode [0b10000010, 0b00000000, 0b00001000] = .ok (.ldi 0 8, []) ∧
  decode [0b10000100, 0b00000010, 0b00000001] = .ok (.st 2 1, []) ∧
  decode [0b01000111, 0b00000000] = .ok (.prn 0, []) ∧
  decode [0b10100010, 0b00000000, 0b00000001] = .ok (.mul 0 1, []) ∧
  decode [0b10100111, 0b00000001, 0b00000010] = .ok (.cmp 1 2, []) ∧
  decode [0b01101001, 0b00000011] = .ok (.not 3, []) ∧
  decode [0b01000101, 0b00000111] = .ok (.push 7, []) ∧
  decode [0b01010000, 0b00000000] = .ok (.call 0, []) ∧
  decode [0b01011010, 0b00000011] = .ok (.jge 3, []) ∧
  decode [0b01010010, 0b00000010] = .ok (.int 2, []) ∧ decode [0b00010011] = .ok (.iret, [])

/-- R78, whole, and R76's number of rows: the top two bits of every opcode are the operand count, the 34 opcodes are
pairwise distinct, and every instruction is a row. -/
def Obligations.OpcodesAreDistinctAndCounted : Prop :=
  (∀ i : Instr, i.opcode.toNat / 64 = i.operands.length) ∧
  ∀ a b : Byte, (rows a b).length = 34 ∧ ((rows a b).map Instr.opcode).Nodup ∧
    ∀ i : Instr, ∃ c d, i ∈ rows c d

/-- Decoding an encoded instruction, whatever follows it, gives it back, with every operand byte at every value. -/
def Obligations.DecodeAfterEncode : Prop :=
  ∀ (i : Instr) (rest : List Byte), decode (encode i ++ rest) = .ok (i, rest)

/-- What decodes to an instruction is that instruction's encoding and nothing else: no two byte sequences stand for one
instruction (R80). -/
def Obligations.EncodeAfterDecode : Prop :=
  ∀ (bs rest : List Byte) (i : Instr), decode bs = .ok (i, rest) → bs = encode i ++ rest

/-- R79: exactly 222 byte values are no opcode. -/
def Obligations.ThereAre222UnknownOpcodes : Prop :=
  ((List.range 256).filter fun n => decide (∀ j < 34, ((rows 0 0).map Instr.opcode)[j]? ≠ some (BitVec.ofNat 8 n))).length
    = 222

/-- R90 to R96: when the bytes at pc, up to the end of memory, decode to an instruction, a step is that instruction's handler
in the state that the boundary left, with a0, IR and the operand latches written and pc moved past the instruction. That
a latch for which no operand byte was fetched keeps its value is the model's choice, log entry 18. -/
def Obligations.StepRunsDecodedInstruction : Prop :=
  ∀ (s u : State) (i : Instr) (rest : List Byte), s.runState = .running → s.boundary = .ok u →
    decode (u.bytesFrom u.pc.toNat) = .ok (i, rest) →
    step s = exec i { u with
      a0  := u.pc
      ir  := i.opcode
      opA := i.operands.getD 0 u.opA
      opB := i.operands.getD 1 u.opB
      pc  := BitVec.ofNat 9 (u.pc.toNat + 1 + i.operands.length) }

/-- R91: a fetch at 256 is fatal, never a wrap to address 0 (decision D8, log entry 16); no opcode is recorded. That a0 is
then written and IR and the operand latches keep their values is the model's choice, log entry 18. -/
def Obligations.FetchBeyondMemoryFaults : Prop :=
  ∀ s u : State, s.runState = .running → s.boundary = .ok u → 255 < u.pc.toNat →
    step s = .next { u with a0 := u.pc, runState := .faulted ⟨.addressOutOfRange, u.pc, none⟩ }

/-- R205, R93, R97: operand bytes that would lie beyond address 255 are fatal, known opcode or not; pc is not advanced. That
a0 and IR are then written and the operand latches keep their values is the model's choice, log entry 18. -/
def Obligations.OperandsBeyondMemoryFault : Prop :=
  ∀ (s u : State) (ir : Byte), s.runState = .running → s.boundary = .ok u → u.pc.toNat ≤ 255 →
    ir = Memory.read u.mem u.pc.toNat → 255 < u.pc.toNat + ir.toNat / 64 →
    step s = .next { u with
      a0 := u.pc, ir := ir, runState := .faulted ⟨.malformedInstructionStream, u.pc, some ir⟩ }

/-- R202, whole: a byte that is no opcode is fatal; pc has moved past it and the operand bytes its top two bits call for,
and nothing else but the latches of the cycle has changed. -/
def Obligations.UnknownOpcodeFaults : Prop :=
  ∀ (s u : State) (ir : Byte), s.runState = .running → s.boundary = .ok u → u.pc.toNat ≤ 255 →
    ir = Memory.read u.mem u.pc.toNat → u.pc.toNat + ir.toNat / 64 ≤ 255 → (∀ i : Instr, i.opcode ≠ ir) →
    ∃ t, step s = .next t ∧ t.runState = .faulted ⟨.unknownOpcode, u.pc, some ir⟩ ∧
      t.pc.toNat = u.pc.toNat + 1 + ir.toNat / 64 ∧ t.a0 = u.pc ∧ t.ir = ir ∧ KeepsRegs u t [] ∧ KeepsMem u t [] ∧
      t.fl = u.fl ∧ t.ictl = u.ictl ∧ t.console = u.console ∧ t.ext = u.ext

/-- R74: an instruction with a byte above 7 in a register position raises AddressOutOfRange and does nothing else, before
any other fault its handler can raise (decision D16). -/
def Obligations.BadRegisterOperandFaults : Prop :=
  ∀ (i : Instr) (s : State), i.wellFormed = false → HandlerFaults i s .addressOutOfRange

/-- R97: a handler that faults has changed nothing but the run state, and the record names a0 and IR (decision D16). -/
def Obligations.FaultingHandlerChangesNothingElse : Prop :=
  ∀ (i : Instr) (s t : State) (r : FaultRecord), s.runState = .running → exec i s = .next t →
    t.runState = .faulted r → t = faultedState s r.cause s.a0 (some s.ir)

/-! ### Memory, reset and the invariant -/

/-- R52, whole: a write replaces one byte and changes nothing else, and reading is plain. -/
def Obligations.MemoryWriteReplacesOneByte : Prop :=
  ∀ (s : State) (a v : Byte), (s.memWrite a v).memRead a = v ∧ KeepsMem s (s.memWrite a v) [a] ∧
    KeepsRegs s (s.memWrite a v) [] ∧ (s.memWrite a v).pc = s.pc ∧ (s.memWrite a v).fl = s.fl ∧
    (s.memWrite a v).console = s.console ∧ KeepsControl s (s.memWrite a v)

/-- R54: the only handlers that write memory are ST, PUSH and CALL, and each writes the one byte `storedAddr` names. -/
def Obligations.HandlersStoreAtMostOneByte : Prop :=
  ∀ (i : Instr) (s t : State), exec i s = .next t → KeepsMem s t (storedAddr i s).toList

/-- The canonical form decides memory: two memories in it that read alike at all 256 addresses are equal data (log entry
11). -/
def Obligations.CanonicalMemoryIsUnique : Prop :=
  ∀ m n : List Host.Cell, Memory.wf m → Memory.wf n → (∀ x : Byte, Memory.read m x.toNat = Memory.read n x.toNat) → m = n

/-- R39, whole: after reset and loading, pc is 0, SP is 0xF4, and memory is the image from address 0 and zero beyond it,
for every draw of FL and whatever requests are to come. -/
def Obligations.ResetAndLoadedMemory : Prop :=
  ∀ (fl : Byte) (image ext : List Byte), image.length ≤ 256 → ∃ t, boot fl image ext = some t ∧ t.pc = 0 ∧
    t.sp = 0xF4 ∧ ∀ x : Byte, t.memRead x = image.getD x.toNat 0

/-- R40, R41, R242: the rest of the reset state (decision D10), for every draw of FL; an image of more than 256 bytes is
refused (decision D22). -/
def Obligations.ResetOfTheOtherState : Prop :=
  ∀ (fl : Byte) (image ext : List Byte),
    (256 < image.length → boot fl image ext = none) ∧
    ∀ t, boot fl image ext = some t → (∀ r : RegIdx, r ≠ 7 → t.reg r = 0) ∧ t.fl = fl ∧ t.ictl = .normal ∧
      t.runState = .running ∧ t.faultRecord = none ∧ t.console = [] ∧ t.ext = ext

/-- The machine right after reset meets the invariant. -/
def Obligations.ResetMeetsInvariant : Prop := State.reset.Inv

/-- From every state that meets the invariant, every step that answers a next state gives one that meets it: memory stays
canonical, pc stays within 0 to 256 (R29), a fault record stays one that the table of R201 allows. -/
def Obligations.StepKeepsInvariant : Prop :=
  ∀ s t : State, s.Inv → step s = .next t → t.Inv
end

