-- ==== Sys2Proof/Laws/Decode.lean ====
section
/-! SUPPORT. What the dispatch table, the decoder and the encoder do, each said once. -/

namespace Sys2Proof

/-- An instruction is the row of its own opcode, filled with its own operand bytes. -/
theorem dispatch_opcode (i : Instr) : dispatch i.opcode (i.operands.getD 0 0) (i.operands.getD 1 0) = some i := by
  cases i <;> rfl

/-- The instruction the dispatch table answers has the opcode asked for. -/
theorem opcode_of_dispatch {ir a b : Byte} {i : Instr} (h : dispatch ir a b = some i) : i.opcode = ir := by
  have := List.find?_some h
  simpa using this

/-- The instruction the dispatch table answers is a row filled with the operand bytes given. -/
theorem operands_of_dispatch {ir a b : Byte} {i : Instr} (h : dispatch ir a b = some i) :
    i.operands = [a, b].take i.operands.length := by
  have hm := List.mem_of_find?_eq_some h
  simp only [rows, List.cons_append, List.nil_append, List.mem_cons, List.not_mem_nil, or_false] at hm
  rcases hm with h | h | h | h | h | h | h | h | h | h | h | h | h | h | h | h | h | h | h | h | h | h | h | h | h | h |
    h | h | h | h | h | h | h | h <;> subst h <;> rfl

/-- Whether a byte is an opcode does not depend on the operand bytes. -/
theorem dispatch_isSome (ir a b : Byte) : (dispatch ir a b).isSome = (dispatch ir 0 0).isSome := by
  rw [Bool.eq_iff_iff, dispatch, dispatch, List.find?_isSome, List.find?_isSome]
  simp [rows, Instr.opcode]

/-- A byte is no row's opcode exactly when it is no instruction's opcode. -/
theorem dispatch_eq_none {ir a b : Byte} : dispatch ir a b = none ↔ ∀ i : Instr, i.opcode ≠ ir := by
  constructor
  · intro h i e
    have h1 := dispatch_isSome ir a b
    have h2 := dispatch_isSome ir (i.operands.getD 0 0) (i.operands.getD 1 0)
    rw [h] at h1
    rw [← e, dispatch_opcode, e] at h2
    rw [← h1] at h2
    cases h2
  · intro h
    cases e : dispatch ir a b with
    | none => rfl
    | some i => exact absurd (opcode_of_dispatch e) (h i)

/-- R78, R102: the operand count of every row is the top two bits of its opcode. -/
theorem operandCount_opcode (i : Instr) : operandCount i.opcode = i.operands.length := by
  cases i <;> simp [operandCount, Instr.opcode, Instr.operands]

theorem operandCount_le (ir : Byte) : operandCount ir ≤ 3 := by
  unfold operandCount; omega

/-- Everything the decoder can answer on a byte sequence that has an opcode byte. -/
theorem decode_cons_cases (ir : Byte) (bs : List Byte) :
    (bs.length < operandCount ir ∧ decode (ir :: bs) = .error (.malformed ir)) ∨
    (operandCount ir ≤ bs.length ∧ (∀ i : Instr, i.opcode ≠ ir) ∧ decode (ir :: bs) = .error (.unknownOpcode ir)) ∨
    (∃ i, i.opcode = ir ∧ operandCount ir ≤ bs.length ∧ dispatch ir (bs.getD 0 0) (bs.getD 1 0) = some i ∧
      decode (ir :: bs) = .ok (i, bs.drop (operandCount ir))) := by
  by_cases hl : bs.length < operandCount ir
  · exact .inl ⟨hl, by simp [decode, hl]⟩
  · cases hd : dispatch ir (bs.getD 0 0) (bs.getD 1 0) with
    | none => exact .inr (.inl ⟨by omega, dispatch_eq_none.1 hd, by simp only [decode, hl, hd]; rfl⟩)
    | some i =>
      exact .inr (.inr ⟨i, opcode_of_dispatch hd, by omega, rfl, by simp only [decode, hl, hd]; rfl⟩)

end Sys2Proof
end

