-- ==== Sys2Proof/Laws/State.lean ====
section
/-! SUPPORT. What each single-field operation does to each field of the state and to reads of registers and memory: one
lemma per field per update, so that no later proof unfolds a record update. -/

namespace Sys2Proof.Machine

variable (s : State)

/-! ### setReg -/

@[simp] theorem State.setReg_pc (i : RegIdx) (v : Byte) : (s.setReg i v).pc = s.pc := rfl
@[simp] theorem State.setReg_fl (i : RegIdx) (v : Byte) : (s.setReg i v).fl = s.fl := rfl
@[simp] theorem State.setReg_a0 (i : RegIdx) (v : Byte) : (s.setReg i v).a0 = s.a0 := rfl
@[simp] theorem State.setReg_ir (i : RegIdx) (v : Byte) : (s.setReg i v).ir = s.ir := rfl
@[simp] theorem State.setReg_opA (i : RegIdx) (v : Byte) : (s.setReg i v).opA = s.opA := rfl
@[simp] theorem State.setReg_opB (i : RegIdx) (v : Byte) : (s.setReg i v).opB = s.opB := rfl
@[simp] theorem State.setReg_ictl (i : RegIdx) (v : Byte) : (s.setReg i v).ictl = s.ictl := rfl
@[simp] theorem State.setReg_runState (i : RegIdx) (v : Byte) : (s.setReg i v).runState = s.runState := rfl
@[simp] theorem State.setReg_console (i : RegIdx) (v : Byte) : (s.setReg i v).console = s.console := rfl
@[simp] theorem State.setReg_mem (i : RegIdx) (v : Byte) : (s.setReg i v).mem = s.mem := rfl
@[simp] theorem State.setReg_ext (i : RegIdx) (v : Byte) : (s.setReg i v).ext = s.ext := rfl
@[simp] theorem State.setReg_memRead (i : RegIdx) (v : Byte) (x : Byte) : (s.setReg i v).memRead x = s.memRead x := rfl

/-! ### setPc -/

@[simp] theorem State.setPc_regs (v : PcWord) : (s.setPc v).regs = s.regs := rfl
@[simp] theorem State.setPc_pc (v : PcWord) : (s.setPc v).pc = v := rfl
@[simp] theorem State.setPc_fl (v : PcWord) : (s.setPc v).fl = s.fl := rfl
@[simp] theorem State.setPc_a0 (v : PcWord) : (s.setPc v).a0 = s.a0 := rfl
@[simp] theorem State.setPc_ir (v : PcWord) : (s.setPc v).ir = s.ir := rfl
@[simp] theorem State.setPc_opA (v : PcWord) : (s.setPc v).opA = s.opA := rfl
@[simp] theorem State.setPc_opB (v : PcWord) : (s.setPc v).opB = s.opB := rfl
@[simp] theorem State.setPc_ictl (v : PcWord) : (s.setPc v).ictl = s.ictl := rfl
@[simp] theorem State.setPc_runState (v : PcWord) : (s.setPc v).runState = s.runState := rfl
@[simp] theorem State.setPc_console (v : PcWord) : (s.setPc v).console = s.console := rfl
@[simp] theorem State.setPc_mem (v : PcWord) : (s.setPc v).mem = s.mem := rfl
@[simp] theorem State.setPc_ext (v : PcWord) : (s.setPc v).ext = s.ext := rfl
@[simp] theorem State.setPc_reg (v : PcWord) (j : RegIdx) : (s.setPc v).reg j = s.reg j := rfl
@[simp] theorem State.setPc_memRead (v : PcWord) (x : Byte) : (s.setPc v).memRead x = s.memRead x := rfl

/-! ### setFl -/

@[simp] theorem State.setFl_regs (v : Byte) : (s.setFl v).regs = s.regs := rfl
@[simp] theorem State.setFl_pc (v : Byte) : (s.setFl v).pc = s.pc := rfl
@[simp] theorem State.setFl_fl (v : Byte) : (s.setFl v).fl = v := rfl
@[simp] theorem State.setFl_a0 (v : Byte) : (s.setFl v).a0 = s.a0 := rfl
@[simp] theorem State.setFl_ir (v : Byte) : (s.setFl v).ir = s.ir := rfl
@[simp] theorem State.setFl_opA (v : Byte) : (s.setFl v).opA = s.opA := rfl
@[simp] theorem State.setFl_opB (v : Byte) : (s.setFl v).opB = s.opB := rfl
@[simp] theorem State.setFl_ictl (v : Byte) : (s.setFl v).ictl = s.ictl := rfl
@[simp] theorem State.setFl_runState (v : Byte) : (s.setFl v).runState = s.runState := rfl
@[simp] theorem State.setFl_console (v : Byte) : (s.setFl v).console = s.console := rfl
@[simp] theorem State.setFl_mem (v : Byte) : (s.setFl v).mem = s.mem := rfl
@[simp] theorem State.setFl_ext (v : Byte) : (s.setFl v).ext = s.ext := rfl
@[simp] theorem State.setFl_reg (v : Byte) (j : RegIdx) : (s.setFl v).reg j = s.reg j := rfl
@[simp] theorem State.setFl_memRead (v : Byte) (x : Byte) : (s.setFl v).memRead x = s.memRead x := rfl

/-! ### setIctl -/

@[simp] theorem State.setIctl_regs (c : Ictl) : (s.setIctl c).regs = s.regs := rfl
@[simp] theorem State.setIctl_pc (c : Ictl) : (s.setIctl c).pc = s.pc := rfl
@[simp] theorem State.setIctl_fl (c : Ictl) : (s.setIctl c).fl = s.fl := rfl
@[simp] theorem State.setIctl_a0 (c : Ictl) : (s.setIctl c).a0 = s.a0 := rfl
@[simp] theorem State.setIctl_ir (c : Ictl) : (s.setIctl c).ir = s.ir := rfl
@[simp] theorem State.setIctl_opA (c : Ictl) : (s.setIctl c).opA = s.opA := rfl
@[simp] theorem State.setIctl_opB (c : Ictl) : (s.setIctl c).opB = s.opB := rfl
@[simp] theorem State.setIctl_ictl (c : Ictl) : (s.setIctl c).ictl = c := rfl
@[simp] theorem State.setIctl_runState (c : Ictl) : (s.setIctl c).runState = s.runState := rfl
@[simp] theorem State.setIctl_console (c : Ictl) : (s.setIctl c).console = s.console := rfl
@[simp] theorem State.setIctl_mem (c : Ictl) : (s.setIctl c).mem = s.mem := rfl
@[simp] theorem State.setIctl_ext (c : Ictl) : (s.setIctl c).ext = s.ext := rfl
@[simp] theorem State.setIctl_reg (c : Ictl) (j : RegIdx) : (s.setIctl c).reg j = s.reg j := rfl
@[simp] theorem State.setIctl_memRead (c : Ictl) (x : Byte) : (s.setIctl c).memRead x = s.memRead x := rfl

/-! ### setRunState -/

@[simp] theorem State.setRunState_regs (r : RunState) : (s.setRunState r).regs = s.regs := rfl
@[simp] theorem State.setRunState_pc (r : RunState) : (s.setRunState r).pc = s.pc := rfl
@[simp] theorem State.setRunState_fl (r : RunState) : (s.setRunState r).fl = s.fl := rfl
@[simp] theorem State.setRunState_a0 (r : RunState) : (s.setRunState r).a0 = s.a0 := rfl
@[simp] theorem State.setRunState_ir (r : RunState) : (s.setRunState r).ir = s.ir := rfl
@[simp] theorem State.setRunState_opA (r : RunState) : (s.setRunState r).opA = s.opA := rfl
@[simp] theorem State.setRunState_opB (r : RunState) : (s.setRunState r).opB = s.opB := rfl
@[simp] theorem State.setRunState_ictl (r : RunState) : (s.setRunState r).ictl = s.ictl := rfl
@[simp] theorem State.setRunState_runState (r : RunState) : (s.setRunState r).runState = r := rfl
@[simp] theorem State.setRunState_console (r : RunState) : (s.setRunState r).console = s.console := rfl
@[simp] theorem State.setRunState_mem (r : RunState) : (s.setRunState r).mem = s.mem := rfl
@[simp] theorem State.setRunState_ext (r : RunState) : (s.setRunState r).ext = s.ext := rfl
@[simp] theorem State.setRunState_reg (r : RunState) (j : RegIdx) : (s.setRunState r).reg j = s.reg j := rfl
@[simp] theorem State.setRunState_memRead (r : RunState) (x : Byte) : (s.setRunState r).memRead x = s.memRead x := rfl

/-! ### setA0 -/

@[simp] theorem State.setA0_regs (v : PcWord) : (s.setA0 v).regs = s.regs := rfl
@[simp] theorem State.setA0_pc (v : PcWord) : (s.setA0 v).pc = s.pc := rfl
@[simp] theorem State.setA0_fl (v : PcWord) : (s.setA0 v).fl = s.fl := rfl
@[simp] theorem State.setA0_a0 (v : PcWord) : (s.setA0 v).a0 = v := rfl
@[simp] theorem State.setA0_ir (v : PcWord) : (s.setA0 v).ir = s.ir := rfl
@[simp] theorem State.setA0_opA (v : PcWord) : (s.setA0 v).opA = s.opA := rfl
@[simp] theorem State.setA0_opB (v : PcWord) : (s.setA0 v).opB = s.opB := rfl
@[simp] theorem State.setA0_ictl (v : PcWord) : (s.setA0 v).ictl = s.ictl := rfl
@[simp] theorem State.setA0_runState (v : PcWord) : (s.setA0 v).runState = s.runState := rfl
@[simp] theorem State.setA0_console (v : PcWord) : (s.setA0 v).console = s.console := rfl
@[simp] theorem State.setA0_mem (v : PcWord) : (s.setA0 v).mem = s.mem := rfl
@[simp] theorem State.setA0_ext (v : PcWord) : (s.setA0 v).ext = s.ext := rfl
@[simp] theorem State.setA0_reg (v : PcWord) (j : RegIdx) : (s.setA0 v).reg j = s.reg j := rfl
@[simp] theorem State.setA0_memRead (v : PcWord) (x : Byte) : (s.setA0 v).memRead x = s.memRead x := rfl

/-! ### setIr -/

@[simp] theorem State.setIr_regs (v : Byte) : (s.setIr v).regs = s.regs := rfl
@[simp] theorem State.setIr_pc (v : Byte) : (s.setIr v).pc = s.pc := rfl
@[simp] theorem State.setIr_fl (v : Byte) : (s.setIr v).fl = s.fl := rfl
@[simp] theorem State.setIr_a0 (v : Byte) : (s.setIr v).a0 = s.a0 := rfl
@[simp] theorem State.setIr_ir (v : Byte) : (s.setIr v).ir = v := rfl
@[simp] theorem State.setIr_opA (v : Byte) : (s.setIr v).opA = s.opA := rfl
@[simp] theorem State.setIr_opB (v : Byte) : (s.setIr v).opB = s.opB := rfl
@[simp] theorem State.setIr_ictl (v : Byte) : (s.setIr v).ictl = s.ictl := rfl
@[simp] theorem State.setIr_runState (v : Byte) : (s.setIr v).runState = s.runState := rfl
@[simp] theorem State.setIr_console (v : Byte) : (s.setIr v).console = s.console := rfl
@[simp] theorem State.setIr_mem (v : Byte) : (s.setIr v).mem = s.mem := rfl
@[simp] theorem State.setIr_ext (v : Byte) : (s.setIr v).ext = s.ext := rfl
@[simp] theorem State.setIr_reg (v : Byte) (j : RegIdx) : (s.setIr v).reg j = s.reg j := rfl
@[simp] theorem State.setIr_memRead (v : Byte) (x : Byte) : (s.setIr v).memRead x = s.memRead x := rfl

/-! ### setOperands -/

@[simp] theorem State.setOperands_regs (a b : Byte) : (s.setOperands a b).regs = s.regs := rfl
@[simp] theorem State.setOperands_pc (a b : Byte) : (s.setOperands a b).pc = s.pc := rfl
@[simp] theorem State.setOperands_fl (a b : Byte) : (s.setOperands a b).fl = s.fl := rfl
@[simp] theorem State.setOperands_a0 (a b : Byte) : (s.setOperands a b).a0 = s.a0 := rfl
@[simp] theorem State.setOperands_ir (a b : Byte) : (s.setOperands a b).ir = s.ir := rfl
@[simp] theorem State.setOperands_opA (a b : Byte) : (s.setOperands a b).opA = a := rfl
@[simp] theorem State.setOperands_opB (a b : Byte) : (s.setOperands a b).opB = b := rfl
@[simp] theorem State.setOperands_ictl (a b : Byte) : (s.setOperands a b).ictl = s.ictl := rfl
@[simp] theorem State.setOperands_runState (a b : Byte) : (s.setOperands a b).runState = s.runState := rfl
@[simp] theorem State.setOperands_console (a b : Byte) : (s.setOperands a b).console = s.console := rfl
@[simp] theorem State.setOperands_mem (a b : Byte) : (s.setOperands a b).mem = s.mem := rfl
@[simp] theorem State.setOperands_ext (a b : Byte) : (s.setOperands a b).ext = s.ext := rfl
@[simp] theorem State.setOperands_reg (a b : Byte) (j : RegIdx) : (s.setOperands a b).reg j = s.reg j := rfl
@[simp] theorem State.setOperands_memRead (a b : Byte) (x : Byte) : (s.setOperands a b).memRead x = s.memRead x := rfl

/-! ### setExt -/

@[simp] theorem State.setExt_regs (e : List Byte) : (s.setExt e).regs = s.regs := rfl
@[simp] theorem State.setExt_pc (e : List Byte) : (s.setExt e).pc = s.pc := rfl
@[simp] theorem State.setExt_fl (e : List Byte) : (s.setExt e).fl = s.fl := rfl
@[simp] theorem State.setExt_a0 (e : List Byte) : (s.setExt e).a0 = s.a0 := rfl
@[simp] theorem State.setExt_ir (e : List Byte) : (s.setExt e).ir = s.ir := rfl
@[simp] theorem State.setExt_opA (e : List Byte) : (s.setExt e).opA = s.opA := rfl
@[simp] theorem State.setExt_opB (e : List Byte) : (s.setExt e).opB = s.opB := rfl
@[simp] theorem State.setExt_ictl (e : List Byte) : (s.setExt e).ictl = s.ictl := rfl
@[simp] theorem State.setExt_runState (e : List Byte) : (s.setExt e).runState = s.runState := rfl
@[simp] theorem State.setExt_console (e : List Byte) : (s.setExt e).console = s.console := rfl
@[simp] theorem State.setExt_mem (e : List Byte) : (s.setExt e).mem = s.mem := rfl
@[simp] theorem State.setExt_ext (e : List Byte) : (s.setExt e).ext = e := rfl
@[simp] theorem State.setExt_reg (e : List Byte) (j : RegIdx) : (s.setExt e).reg j = s.reg j := rfl
@[simp] theorem State.setExt_memRead (e : List Byte) (x : Byte) : (s.setExt e).memRead x = s.memRead x := rfl

/-! ### memWrite -/

@[simp] theorem State.memWrite_regs (a v : Byte) : (s.memWrite a v).regs = s.regs := rfl
@[simp] theorem State.memWrite_pc (a v : Byte) : (s.memWrite a v).pc = s.pc := rfl
@[simp] theorem State.memWrite_fl (a v : Byte) : (s.memWrite a v).fl = s.fl := rfl
@[simp] theorem State.memWrite_a0 (a v : Byte) : (s.memWrite a v).a0 = s.a0 := rfl
@[simp] theorem State.memWrite_ir (a v : Byte) : (s.memWrite a v).ir = s.ir := rfl
@[simp] theorem State.memWrite_opA (a v : Byte) : (s.memWrite a v).opA = s.opA := rfl
@[simp] theorem State.memWrite_opB (a v : Byte) : (s.memWrite a v).opB = s.opB := rfl
@[simp] theorem State.memWrite_ictl (a v : Byte) : (s.memWrite a v).ictl = s.ictl := rfl
@[simp] theorem State.memWrite_runState (a v : Byte) : (s.memWrite a v).runState = s.runState := rfl
@[simp] theorem State.memWrite_console (a v : Byte) : (s.memWrite a v).console = s.console := rfl
@[simp] theorem State.memWrite_mem (a v : Byte) : (s.memWrite a v).mem = Memory.write s.mem a.toNat v := rfl
@[simp] theorem State.memWrite_ext (a v : Byte) : (s.memWrite a v).ext = s.ext := rfl
@[simp] theorem State.memWrite_reg (a v : Byte) (j : RegIdx) : (s.memWrite a v).reg j = s.reg j := rfl

/-! ### emit -/

@[simp] theorem State.emit_regs (k : ConsoleKind) (v : Byte) : (s.emit k v).regs = s.regs := rfl
@[simp] theorem State.emit_pc (k : ConsoleKind) (v : Byte) : (s.emit k v).pc = s.pc := rfl
@[simp] theorem State.emit_fl (k : ConsoleKind) (v : Byte) : (s.emit k v).fl = s.fl := rfl
@[simp] theorem State.emit_a0 (k : ConsoleKind) (v : Byte) : (s.emit k v).a0 = s.a0 := rfl
@[simp] theorem State.emit_ir (k : ConsoleKind) (v : Byte) : (s.emit k v).ir = s.ir := rfl
@[simp] theorem State.emit_opA (k : ConsoleKind) (v : Byte) : (s.emit k v).opA = s.opA := rfl
@[simp] theorem State.emit_opB (k : ConsoleKind) (v : Byte) : (s.emit k v).opB = s.opB := rfl
@[simp] theorem State.emit_ictl (k : ConsoleKind) (v : Byte) : (s.emit k v).ictl = s.ictl := rfl
@[simp] theorem State.emit_runState (k : ConsoleKind) (v : Byte) : (s.emit k v).runState = s.runState := rfl
@[simp] theorem State.emit_console (k : ConsoleKind) (v : Byte) : (s.emit k v).console = s.console ++ [⟨k, v⟩] := rfl
@[simp] theorem State.emit_mem (k : ConsoleKind) (v : Byte) : (s.emit k v).mem = s.mem := rfl
@[simp] theorem State.emit_ext (k : ConsoleKind) (v : Byte) : (s.emit k v).ext = s.ext := rfl
@[simp] theorem State.emit_reg (k : ConsoleKind) (v : Byte) (j : RegIdx) : (s.emit k v).reg j = s.reg j := rfl
@[simp] theorem State.emit_memRead (k : ConsoleKind) (v : Byte) (x : Byte) : (s.emit k v).memRead x = s.memRead x := rfl

/-! ### raise -/

@[simp] theorem State.raise_regs (c : Fault) (a : PcWord) (o : Option Byte) : (s.raise c a o).regs = s.regs := rfl
@[simp] theorem State.raise_pc (c : Fault) (a : PcWord) (o : Option Byte) : (s.raise c a o).pc = s.pc := rfl
@[simp] theorem State.raise_fl (c : Fault) (a : PcWord) (o : Option Byte) : (s.raise c a o).fl = s.fl := rfl
@[simp] theorem State.raise_a0 (c : Fault) (a : PcWord) (o : Option Byte) : (s.raise c a o).a0 = s.a0 := rfl
@[simp] theorem State.raise_ir (c : Fault) (a : PcWord) (o : Option Byte) : (s.raise c a o).ir = s.ir := rfl
@[simp] theorem State.raise_opA (c : Fault) (a : PcWord) (o : Option Byte) : (s.raise c a o).opA = s.opA := rfl
@[simp] theorem State.raise_opB (c : Fault) (a : PcWord) (o : Option Byte) : (s.raise c a o).opB = s.opB := rfl
@[simp] theorem State.raise_ictl (c : Fault) (a : PcWord) (o : Option Byte) : (s.raise c a o).ictl = s.ictl := rfl
@[simp] theorem State.raise_runState (c : Fault) (a : PcWord) (o : Option Byte) : (s.raise c a o).runState = .faulted ⟨c, a, o⟩ := rfl
@[simp] theorem State.raise_console (c : Fault) (a : PcWord) (o : Option Byte) : (s.raise c a o).console = s.console := rfl
@[simp] theorem State.raise_mem (c : Fault) (a : PcWord) (o : Option Byte) : (s.raise c a o).mem = s.mem := rfl
@[simp] theorem State.raise_ext (c : Fault) (a : PcWord) (o : Option Byte) : (s.raise c a o).ext = s.ext := rfl
@[simp] theorem State.raise_reg (c : Fault) (a : PcWord) (o : Option Byte) (j : RegIdx) : (s.raise c a o).reg j = s.reg j := rfl
@[simp] theorem State.raise_memRead (c : Fault) (a : PcWord) (o : Option Byte) (x : Byte) : (s.raise c a o).memRead x = s.memRead x := rfl

/-! ### raiseHere -/

@[simp] theorem State.raiseHere_regs (c : Fault) : (s.raiseHere c).regs = s.regs := rfl
@[simp] theorem State.raiseHere_pc (c : Fault) : (s.raiseHere c).pc = s.pc := rfl
@[simp] theorem State.raiseHere_fl (c : Fault) : (s.raiseHere c).fl = s.fl := rfl
@[simp] theorem State.raiseHere_a0 (c : Fault) : (s.raiseHere c).a0 = s.a0 := rfl
@[simp] theorem State.raiseHere_ir (c : Fault) : (s.raiseHere c).ir = s.ir := rfl
@[simp] theorem State.raiseHere_opA (c : Fault) : (s.raiseHere c).opA = s.opA := rfl
@[simp] theorem State.raiseHere_opB (c : Fault) : (s.raiseHere c).opB = s.opB := rfl
@[simp] theorem State.raiseHere_ictl (c : Fault) : (s.raiseHere c).ictl = s.ictl := rfl
@[simp] theorem State.raiseHere_runState (c : Fault) : (s.raiseHere c).runState = .faulted ⟨c, s.a0, some s.ir⟩ := rfl
@[simp] theorem State.raiseHere_console (c : Fault) : (s.raiseHere c).console = s.console := rfl
@[simp] theorem State.raiseHere_mem (c : Fault) : (s.raiseHere c).mem = s.mem := rfl
@[simp] theorem State.raiseHere_ext (c : Fault) : (s.raiseHere c).ext = s.ext := rfl
@[simp] theorem State.raiseHere_reg (c : Fault) (j : RegIdx) : (s.raiseHere c).reg j = s.reg j := rfl
@[simp] theorem State.raiseHere_memRead (c : Fault) (x : Byte) : (s.raiseHere c).memRead x = s.memRead x := rfl

/-! ### Reading a register after writing one -/

@[simp] theorem State.setReg_reg_same (i : RegIdx) (v : Byte) : (s.setReg i v).reg i = v := by
  simp [State.reg, State.setReg]

theorem State.setReg_reg_ne {i j : RegIdx} (v : Byte) (h : j ≠ i) : (s.setReg i v).reg j = s.reg j := by
  have h' : (i : Nat) ≠ j := fun e => h (Fin.ext e.symm)
  simp [State.reg, State.setReg, h']

/-- Both cases in one: the register written reads as the value, every other one as before. -/
theorem State.setReg_reg (i j : RegIdx) (v : Byte) : (s.setReg i v).reg j = if j = i then v else s.reg j := by
  split
  · next h => subst h; exact State.setReg_reg_same s j v
  · next h => exact State.setReg_reg_ne s v h

/-- Two states that agree in every field, the registers read one by one, are equal. -/
theorem State.ext_reg {s t : State} (hr : ∀ i, t.reg i = s.reg i) (h : t = { s with regs := t.regs }) : t = s := by
  have : t.regs = s.regs := by
    apply Vector.ext
    intro i hi
    exact hr ⟨i, hi⟩
  rw [h, this]

end Sys2Proof.Machine
end

