-- ==== Sys2Proof/Laws/Memory.lean ====
section
/-! SUPPORT. The laws of memory: a read after a write, the canonical form and that every memory operation keeps it,
and what it lists. -/

namespace Sys2Proof.Machine

/-! ### Reads -/

theorem Memory.read_filter_ne (m : List Host.Cell) {a b : Nat} (h : b ≠ a) :
    Memory.read (m.filter fun c => c.1 ≠ a) b = Memory.read m b := by
  induction m with
  | nil => rfl
  | cons c m ih =>
    by_cases hc : c.1 = a
    · have : c.1 ≠ b := fun e => h (e.symm.trans hc)
      simp_all [Memory.read]
    · simp_all [Memory.read]

theorem Memory.read_of_not_mem (m : List Host.Cell) (a : Nat) (h : ∀ c ∈ m, c.1 ≠ a) :
    Memory.read m a = Memory.unlisted := by
  induction m with
  | nil => rfl
  | cons c m ih => simp_all [Memory.read]

theorem Memory.read_insert_same (m : List Host.Cell) (a : Nat) (v : Byte) (h : ∀ c ∈ m, c.1 ≠ a) :
    Memory.read (Memory.insert (a, v) m) a = v := by
  induction m with
  | nil => simp [Memory.insert, Memory.read]
  | cons d m ih =>
    simp only [List.mem_cons, forall_eq_or_imp] at h
    by_cases hd : a < d.1 <;> simp [Memory.insert, Memory.read, hd, h.1, ih h.2]

theorem Memory.read_insert_ne (m : List Host.Cell) {a b : Nat} (v : Byte) (h : b ≠ a) :
    Memory.read (Memory.insert (a, v) m) b = Memory.read m b := by
  induction m with
  | nil => simp [Memory.insert, Memory.read, h.symm]
  | cons d m ih => by_cases hd : a < d.1 <;> simp [Memory.insert, Memory.read, hd, h.symm, ih]

theorem Memory.read_write_same (m : List Host.Cell) (a : Nat) (v : Byte) :
    Memory.read (Memory.write m a v) a = v := by
  have hno : ∀ c ∈ m.filter (fun c => c.1 ≠ a), c.1 ≠ a := by simp
  unfold Memory.write
  split
  · next hv => rw [Memory.read_of_not_mem _ _ hno, hv]
  · exact Memory.read_insert_same _ a v hno

theorem Memory.read_write_ne (m : List Host.Cell) {a b : Nat} (v : Byte) (h : b ≠ a) :
    Memory.read (Memory.write m a v) b = Memory.read m b := by
  unfold Memory.write
  split
  · exact Memory.read_filter_ne m h
  · rw [Memory.read_insert_ne _ v h, Memory.read_filter_ne m h]

/-- MemRead after MemWrite (R52): the byte written at its address, every other byte as before. -/
theorem State.memWrite_memRead (s : State) (a v x : Byte) :
    (s.memWrite a v).memRead x = if x = a then v else s.memRead x := by
  unfold State.memRead State.memWrite
  split
  · next h => subst h; exact Memory.read_write_same _ _ _
  · next h => exact Memory.read_write_ne _ _ fun e => h (BitVec.eq_of_toNat_eq e)

@[simp] theorem State.memWrite_memRead_same (s : State) (a v : Byte) : (s.memWrite a v).memRead a = v := by
  simp [State.memWrite_memRead]

theorem State.memWrite_memRead_ne (s : State) {a x : Byte} (v : Byte) (h : x ≠ a) :
    (s.memWrite a v).memRead x = s.memRead x := by
  simp [State.memWrite_memRead, h]

/-! ### The canonical form -/

theorem Memory.mem_insert {c d : Host.Cell} {m : List Host.Cell} :
    d ∈ Memory.insert c m ↔ d = c ∨ d ∈ m := by
  induction m with
  | nil => simp [Memory.insert]
  | cons e m ih =>
    unfold Memory.insert
    split
    · simp
    · simp only [List.mem_cons, ih]; tauto

theorem Memory.insert_sorted {c : Host.Cell} {m : List Host.Cell} (hs : m.Pairwise fun c d => c.1 < d.1)
    (hc : ∀ d ∈ m, d.1 ≠ c.1) : (Memory.insert c m).Pairwise fun c d => c.1 < d.1 := by
  induction m with
  | nil => simp [Memory.insert]
  | cons e m ih =>
    rw [List.pairwise_cons] at hs
    simp only [List.mem_cons, forall_eq_or_imp] at hc
    unfold Memory.insert
    split
    · next h =>
      refine List.pairwise_cons.2 ⟨fun d hd => ?_, List.pairwise_cons.2 hs⟩
      rcases List.mem_cons.1 hd with rfl | hd
      · exact h
      · exact h.trans (hs.1 d hd)
    · next h =>
      refine List.pairwise_cons.2 ⟨fun d hd => ?_, ih hs.2 hc.2⟩
      rcases Memory.mem_insert.1 hd with rfl | hd
      · have := hc.1; omega
      · exact hs.1 d hd

theorem Memory.wf_nil : Memory.wf [] := ⟨List.Pairwise.nil, by simp⟩

/-- A write keeps the canonical form. -/
theorem Memory.wf_write {m : List Host.Cell} {a : Nat} (v : Byte) (ha : a < memSize) (h : Memory.wf m) :
    Memory.wf (Memory.write m a v) := by
  have hs : (m.filter fun c => c.1 ≠ a).Pairwise fun c d => c.1 < d.1 := h.1.filter _
  have hm : ∀ c ∈ m.filter (fun c => c.1 ≠ a), c.1 < memSize ∧ c.2 ≠ Memory.unlisted :=
    fun c hc => h.2 c (List.mem_filter.1 hc).1
  unfold Memory.write
  split
  · exact ⟨hs, hm⟩
  · next hv =>
    refine ⟨Memory.insert_sorted hs (by simp), fun c hc => ?_⟩
    rcases Memory.mem_insert.1 hc with rfl | hc
    · exact ⟨ha, hv⟩
    · exact hm c hc

theorem Memory.wf_writeBytes {m : List Host.Cell} (a : Nat) (vs : List Byte) (h : Memory.wf m) :
    Memory.wf (Memory.writeBytes m a vs) := by
  induction vs generalizing m a with
  | nil => exact h
  | cons v vs ih =>
    unfold Memory.writeBytes
    apply ih
    split
    · next ha => exact Memory.wf_write v ha h
    · exact h

theorem State.memWrite_wf {s : State} (a v : Byte) (h : Memory.wf s.mem) : Memory.wf (s.memWrite a v).mem :=
  Memory.wf_write v a.isLt h

/-- What consecutive writes leave at an address: the byte written there, else what was there. -/
theorem Memory.read_writeBytes (m : List Host.Cell) (a : Nat) (vs : List Byte) (x : Nat) (hx : x < memSize) :
    Memory.read (Memory.writeBytes m a vs) x
      = if a ≤ x ∧ x < a + vs.length then vs.getD (x - a) 0 else Memory.read m x := by
  induction vs generalizing m a with
  | nil => simp [Memory.writeBytes]
  | cons v vs ih =>
    unfold Memory.writeBytes
    rw [ih]
    by_cases hxa : x = a
    · subst hxa; simp [hx, Memory.read_write_same]
    · by_cases hlt : a < x
      · obtain ⟨k, rfl⟩ : ∃ k, x = a + 1 + k := ⟨x - (a + 1), by omega⟩
        have e1 : a + 1 + k - (a + 1) = k := by omega
        have e2 : a + 1 + k - a = k + 1 := by omega
        simp only [e1, e2, List.getD_cons_succ, List.length_cons]
        have hr : Memory.read (if a < memSize then Memory.write m a v else m) (a + 1 + k)
            = Memory.read m (a + 1 + k) := by
          split
          · exact Memory.read_write_ne m v hxa
          · rfl
        rw [hr]
        congr 1
        simp; omega
      · have hr : Memory.read (if a < memSize then Memory.write m a v else m) x = Memory.read m x := by
          split
          · exact Memory.read_write_ne m v hxa
          · rfl
        rw [hr, if_neg (by omega), if_neg (by omega)]

/-! ### What the canonical form lists -/

theorem Memory.read_beyond {m : List Host.Cell} (h : Memory.wf m) {a : Nat} (ha : memSize ≤ a) :
    Memory.read m a = Memory.unlisted :=
  Memory.read_of_not_mem m a fun c hc e => by have := (h.2 c hc).1; omega

theorem Memory.read_of_mem {m : List Host.Cell} (h : m.Pairwise fun c d => c.1 < d.1) {c : Host.Cell} (hc : c ∈ m) :
    Memory.read m c.1 = c.2 := by
  induction m with
  | nil => cases hc
  | cons d m ih =>
    rw [List.pairwise_cons] at h
    rcases List.mem_cons.1 hc with rfl | hc
    · simp [Memory.read]
    · have := h.1 c hc
      have hne : d.1 ≠ c.1 := by omega
      simp [Memory.read, hne, ih h.2 hc]

/-- A canonical memory lists exactly what differs from what an unlisted address reads as. -/
theorem Memory.mem_iff_read {m : List Host.Cell} (h : Memory.wf m) (c : Host.Cell) :
    c ∈ m ↔ Memory.read m c.1 = c.2 ∧ c.2 ≠ Memory.unlisted := by
  refine ⟨fun hc => ⟨Memory.read_of_mem h.1 hc, (h.2 c hc).2⟩, fun ⟨h1, h2⟩ => ?_⟩
  by_cases hx : ∃ d ∈ m, d.1 = c.1
  · obtain ⟨d, hd, e⟩ := hx
    have hr := Memory.read_of_mem h.1 hd
    rw [e, h1] at hr
    exact (Prod.ext e.symm hr : c = d) ▸ hd
  · exact absurd (h1.symm.trans (Memory.read_of_not_mem m _ fun d hd e => hx ⟨d, hd, e⟩)) h2

end Sys2Proof.Machine
end

