-- ==== Sys2Proof/Laws/Ops.lean ====
section
/-! SUPPORT. One lemma for each thing a shared operation does: the operand check, the stack primitives, the nine pushes of
interrupt entry and the nine pops of the return. -/

namespace Sys2Proof.Machine

/-! ### The operand check -/

@[simp] theorem regByte_toNat (i : RegIdx) : (regByte i).toNat = i.val := by
  simp [regByte]; omega

@[simp] theorem regIndex_regByte (i : RegIdx) : regIndex (regByte i) = some i := by
  simp [regIndex]

theorem regIndex_eq_some {a : Byte} {i : RegIdx} (h : regIndex a = some i) : a = regByte i := by
  unfold regIndex at h
  split at h
  · next hlt =>
    cases h
    exact BitVec.eq_of_toNat_eq (by simp)
  · cases h

theorem regIndex_eq_none {a : Byte} : regIndex a = none ↔ validRegOperand a = false := by
  unfold regIndex validRegOperand
  split <;> simp_all

@[simp] theorem withReg_regByte (i : RegIdx) (s : State) (k : RegIdx → Result) : withReg (regByte i) s k = k i := by
  simp [withReg]

@[simp] theorem withRegs_regByte (i j : RegIdx) (s : State) (k : RegIdx → RegIdx → Result) :
    withRegs (regByte i) (regByte j) s k = k i j := by
  simp [withRegs]

theorem withReg_invalid {a : Byte} (h : validRegOperand a = false) (s : State) (k : RegIdx → Result) :
    withReg a s k = .next (s.raiseHere .addressOutOfRange) := by
  simp [withReg, regIndex_eq_none.2 h]

theorem withRegs_invalid {a b : Byte} (h : validRegOperand a = false ∨ validRegOperand b = false) (s : State)
    (k : RegIdx → RegIdx → Result) : withRegs a b s k = .next (s.raiseHere .addressOutOfRange) := by
  unfold withRegs
  cases ha : regIndex a with
  | none => simp [withReg, ha]
  | some i =>
    have hb : validRegOperand b = false := by
      refine h.resolve_left fun h' => ?_
      rw [regIndex_eq_none.2 h'] at ha
      cases ha
    simp [withReg, ha, regIndex_eq_none.2 hb]

/-- Everything a one-register handler can answer. -/
theorem withReg_cases {a : Byte} {s : State} {k : RegIdx → Result} {r : Result} (h : withReg a s k = r) :
    (∃ i, a = regByte i ∧ k i = r) ∨ r = .next (s.raiseHere .addressOutOfRange) := by
  unfold withReg at h
  split at h
  · next i hi => exact .inl ⟨i, regIndex_eq_some hi, h⟩
  · exact .inr h.symm

/-- Everything a two-register handler can answer. -/
theorem withRegs_cases {a b : Byte} {s : State} {k : RegIdx → RegIdx → Result} {r : Result}
    (h : withRegs a b s k = r) :
    (∃ i j, a = regByte i ∧ b = regByte j ∧ k i j = r) ∨ r = .next (s.raiseHere .addressOutOfRange) := by
  rcases withReg_cases h with ⟨i, ha, h⟩ | h
  · rcases withReg_cases h with ⟨j, hb, h⟩ | h
    · exact .inl ⟨i, j, ha, hb, h⟩
    · exact .inr h
  · exact .inr h

/-! ### push -/

theorem State.push_reg (s : State) (v : Byte) (j : RegIdx) :
    (s.push v).reg j = if j = spReg then s.sp - 1 else s.reg j := by
  simp [State.push, State.setReg_reg]

theorem State.push_memRead (s : State) (v x : Byte) :
    (s.push v).memRead x = if x = s.sp - 1 then v else s.memRead x := by
  simp [State.push, State.memWrite_memRead]

@[simp] theorem State.push_pc (s : State) (v : Byte) : (s.push v).pc = s.pc := rfl
@[simp] theorem State.push_fl (s : State) (v : Byte) : (s.push v).fl = s.fl := rfl
@[simp] theorem State.push_a0 (s : State) (v : Byte) : (s.push v).a0 = s.a0 := rfl
@[simp] theorem State.push_ir (s : State) (v : Byte) : (s.push v).ir = s.ir := rfl
@[simp] theorem State.push_opA (s : State) (v : Byte) : (s.push v).opA = s.opA := rfl
@[simp] theorem State.push_opB (s : State) (v : Byte) : (s.push v).opB = s.opB := rfl
@[simp] theorem State.push_ictl (s : State) (v : Byte) : (s.push v).ictl = s.ictl := rfl
@[simp] theorem State.push_runState (s : State) (v : Byte) : (s.push v).runState = s.runState := rfl
@[simp] theorem State.push_console (s : State) (v : Byte) : (s.push v).console = s.console := rfl
@[simp] theorem State.push_ext (s : State) (v : Byte) : (s.push v).ext = s.ext := rfl

theorem State.push_wf {s : State} (v : Byte) (h : Memory.wf s.mem) : Memory.wf (s.push v).mem :=
  Memory.wf_write v (BitVec.isLt _) h

/-! ### pop -/

theorem State.popState_reg (s : State) (j : RegIdx) :
    s.popState.reg j = if j = spReg then s.sp + 1 else s.reg j := by
  simp [State.popState, State.setReg_reg]

@[simp] theorem State.popState_memRead (s : State) (x : Byte) : s.popState.memRead x = s.memRead x := rfl
@[simp] theorem State.popState_mem (s : State) : s.popState.mem = s.mem := rfl
@[simp] theorem State.popState_pc (s : State) : s.popState.pc = s.pc := rfl
@[simp] theorem State.popState_fl (s : State) : s.popState.fl = s.fl := rfl
@[simp] theorem State.popState_a0 (s : State) : s.popState.a0 = s.a0 := rfl
@[simp] theorem State.popState_ir (s : State) : s.popState.ir = s.ir := rfl
@[simp] theorem State.popState_opA (s : State) : s.popState.opA = s.opA := rfl
@[simp] theorem State.popState_opB (s : State) : s.popState.opB = s.opB := rfl
@[simp] theorem State.popState_ictl (s : State) : s.popState.ictl = s.ictl := rfl
@[simp] theorem State.popState_runState (s : State) : s.popState.runState = s.runState := rfl
@[simp] theorem State.popState_console (s : State) : s.popState.console = s.console := rfl
@[simp] theorem State.popState_ext (s : State) : s.popState.ext = s.ext := rfl

/-! ### The nine pushes of interrupt entry -/

/-- SP after the seven register pushes; the other registers are unchanged. -/
theorem State.pushRegs_reg (s : State) (j : RegIdx) :
    s.pushRegs.reg j = if j = spReg then s.sp - 7 else s.reg j := by
  by_cases h : j = spReg <;> simp [State.pushRegs, State.push_reg, h, sub_sub]

/-- The seven register values pushed, register 0 highest, and nothing else in memory changed. -/
theorem State.pushRegs_memRead (s : State) (x : Byte) :
    s.pushRegs.memRead x =
      if x = s.sp - 7 then s.reg 6 else if x = s.sp - 6 then s.reg 5 else if x = s.sp - 5 then s.reg 4
      else if x = s.sp - 4 then s.reg 3 else if x = s.sp - 3 then s.reg 2 else if x = s.sp - 2 then s.reg 1
      else if x = s.sp - 1 then s.reg 0 else s.memRead x := by
  simp [State.pushRegs, State.push_memRead, State.push_reg, spReg, sub_sub]

@[simp] theorem State.pushRegs_pc (s : State) : s.pushRegs.pc = s.pc := rfl
@[simp] theorem State.pushRegs_fl (s : State) : s.pushRegs.fl = s.fl := rfl
@[simp] theorem State.pushRegs_a0 (s : State) : s.pushRegs.a0 = s.a0 := rfl
@[simp] theorem State.pushRegs_ir (s : State) : s.pushRegs.ir = s.ir := rfl
@[simp] theorem State.pushRegs_opA (s : State) : s.pushRegs.opA = s.opA := rfl
@[simp] theorem State.pushRegs_opB (s : State) : s.pushRegs.opB = s.opB := rfl
@[simp] theorem State.pushRegs_ictl (s : State) : s.pushRegs.ictl = s.ictl := rfl
@[simp] theorem State.pushRegs_runState (s : State) : s.pushRegs.runState = s.runState := rfl
@[simp] theorem State.pushRegs_console (s : State) : s.pushRegs.console = s.console := rfl
@[simp] theorem State.pushRegs_ext (s : State) : s.pushRegs.ext = s.ext := rfl

theorem State.pushRegs_wf {s : State} (h : Memory.wf s.mem) : Memory.wf s.pushRegs.mem :=
  State.push_wf _ (State.push_wf _ (State.push_wf _ (State.push_wf _ (State.push_wf _ (State.push_wf _
    (State.push_wf _ h))))))

/-! ### The nine pops of the return -/

/-- `x[i] <- pop()` for a register that is not SP. -/
theorem State.popReg_reg (s : State) {i : RegIdx} (hi : i ≠ spReg) (j : RegIdx) :
    (s.popReg i).reg j = if j = spReg then s.sp + 1 else if j = i then s.memRead s.sp else s.reg j := by
  by_cases h : j = spReg
  · subst h; simp [State.popReg, State.setReg_reg, State.popState_reg, hi.symm]
  · by_cases h' : j = i <;> simp [State.popReg, State.setReg_reg, State.popState_reg, State.popValue, h, h', hi]

theorem State.popFl_reg (s : State) (j : RegIdx) : s.popFl.reg j = if j = spReg then s.sp + 1 else s.reg j :=
  State.popState_reg s j

theorem State.popPc_reg (s : State) (j : RegIdx) : s.popPc.reg j = if j = spReg then s.sp + 1 else s.reg j :=
  State.popState_reg s j

@[simp] theorem State.popReg_fl (s : State) (i : RegIdx) : (s.popReg i).fl = s.fl := rfl
@[simp] theorem State.popReg_pc (s : State) (i : RegIdx) : (s.popReg i).pc = s.pc := rfl
@[simp] theorem State.popReg_mem (s : State) (i : RegIdx) : (s.popReg i).mem = s.mem := rfl
@[simp] theorem State.popReg_a0 (s : State) (i : RegIdx) : (s.popReg i).a0 = s.a0 := rfl
@[simp] theorem State.popReg_ir (s : State) (i : RegIdx) : (s.popReg i).ir = s.ir := rfl
@[simp] theorem State.popReg_opA (s : State) (i : RegIdx) : (s.popReg i).opA = s.opA := rfl
@[simp] theorem State.popReg_opB (s : State) (i : RegIdx) : (s.popReg i).opB = s.opB := rfl
@[simp] theorem State.popReg_ictl (s : State) (i : RegIdx) : (s.popReg i).ictl = s.ictl := rfl
@[simp] theorem State.popReg_runState (s : State) (i : RegIdx) : (s.popReg i).runState = s.runState := rfl
@[simp] theorem State.popReg_console (s : State) (i : RegIdx) : (s.popReg i).console = s.console := rfl
@[simp] theorem State.popReg_ext (s : State) (i : RegIdx) : (s.popReg i).ext = s.ext := rfl
@[simp] theorem State.popReg_memRead (s : State) (i : RegIdx) (x : Byte) : (s.popReg i).memRead x = s.memRead x := rfl

@[simp] theorem State.popFl_fl (s : State) : (s.popFl).fl = s.memRead s.sp := rfl
@[simp] theorem State.popFl_pc (s : State) : (s.popFl).pc = s.pc := rfl
@[simp] theorem State.popFl_mem (s : State) : (s.popFl).mem = s.mem := rfl
@[simp] theorem State.popFl_a0 (s : State) : (s.popFl).a0 = s.a0 := rfl
@[simp] theorem State.popFl_ir (s : State) : (s.popFl).ir = s.ir := rfl
@[simp] theorem State.popFl_opA (s : State) : (s.popFl).opA = s.opA := rfl
@[simp] theorem State.popFl_opB (s : State) : (s.popFl).opB = s.opB := rfl
@[simp] theorem State.popFl_ictl (s : State) : (s.popFl).ictl = s.ictl := rfl
@[simp] theorem State.popFl_runState (s : State) : (s.popFl).runState = s.runState := rfl
@[simp] theorem State.popFl_console (s : State) : (s.popFl).console = s.console := rfl
@[simp] theorem State.popFl_ext (s : State) : (s.popFl).ext = s.ext := rfl
@[simp] theorem State.popFl_memRead (s : State) (x : Byte) : (s.popFl).memRead x = s.memRead x := rfl

@[simp] theorem State.popPc_fl (s : State) : (s.popPc).fl = s.fl := rfl
@[simp] theorem State.popPc_pc (s : State) : (s.popPc).pc = zext9 (s.memRead s.sp) := rfl
@[simp] theorem State.popPc_mem (s : State) : (s.popPc).mem = s.mem := rfl
@[simp] theorem State.popPc_a0 (s : State) : (s.popPc).a0 = s.a0 := rfl
@[simp] theorem State.popPc_ir (s : State) : (s.popPc).ir = s.ir := rfl
@[simp] theorem State.popPc_opA (s : State) : (s.popPc).opA = s.opA := rfl
@[simp] theorem State.popPc_opB (s : State) : (s.popPc).opB = s.opB := rfl
@[simp] theorem State.popPc_ictl (s : State) : (s.popPc).ictl = s.ictl := rfl
@[simp] theorem State.popPc_runState (s : State) : (s.popPc).runState = s.runState := rfl
@[simp] theorem State.popPc_console (s : State) : (s.popPc).console = s.console := rfl
@[simp] theorem State.popPc_ext (s : State) : (s.popPc).ext = s.ext := rfl
@[simp] theorem State.popPc_memRead (s : State) (x : Byte) : (s.popPc).memRead x = s.memRead x := rfl

/-- What the seven register pops leave in each register: SP seven higher, R6 the lowest byte, R0 the highest. -/
theorem State.popRegs_reg (s : State) (j : RegIdx) :
    s.popRegs.reg j =
      if j = spReg then s.sp + 7 else if j = 6 then s.memRead s.sp else if j = 5 then s.memRead (s.sp + 1)
      else if j = 4 then s.memRead (s.sp + 2) else if j = 3 then s.memRead (s.sp + 3)
      else if j = 2 then s.memRead (s.sp + 4) else if j = 1 then s.memRead (s.sp + 5)
      else s.memRead (s.sp + 6) := by
  fin_cases j <;> simp [State.popRegs, State.popReg_reg, spReg, add_assoc]

@[simp] theorem State.popRegs_fl (s : State) : s.popRegs.fl = s.fl := by simp [State.popRegs]
@[simp] theorem State.popRegs_pc (s : State) : s.popRegs.pc = s.pc := by simp [State.popRegs]
@[simp] theorem State.popRegs_mem (s : State) : s.popRegs.mem = s.mem := by simp [State.popRegs]
@[simp] theorem State.popRegs_a0 (s : State) : s.popRegs.a0 = s.a0 := by simp [State.popRegs]
@[simp] theorem State.popRegs_ir (s : State) : s.popRegs.ir = s.ir := by simp [State.popRegs]
@[simp] theorem State.popRegs_opA (s : State) : s.popRegs.opA = s.opA := by simp [State.popRegs]
@[simp] theorem State.popRegs_opB (s : State) : s.popRegs.opB = s.opB := by simp [State.popRegs]
@[simp] theorem State.popRegs_ictl (s : State) : s.popRegs.ictl = s.ictl := by simp [State.popRegs]
@[simp] theorem State.popRegs_runState (s : State) : s.popRegs.runState = s.runState := by simp [State.popRegs]
@[simp] theorem State.popRegs_console (s : State) : s.popRegs.console = s.console := by simp [State.popRegs]
@[simp] theorem State.popRegs_ext (s : State) : s.popRegs.ext = s.ext := by simp [State.popRegs]
@[simp] theorem State.popRegs_memRead (s : State) (x : Byte) : s.popRegs.memRead x = s.memRead x := by
  simp [State.popRegs]

/-- What the return leaves in each register: the seven saved bytes, and SP nine higher (R191). -/
theorem State.interruptReturn_reg (s : State) (j : RegIdx) :
    s.interruptReturn.reg j = if j = spReg then s.sp + 9 else s.popRegs.reg j := by
  by_cases h : j = spReg <;>
    simp [State.interruptReturn, State.popPc_reg, State.popFl_reg, State.popRegs_reg, h, add_assoc]

theorem State.interruptReturn_fl (s : State) : s.interruptReturn.fl = s.memRead (s.sp + 7) := by
  simp [State.interruptReturn, State.popRegs_reg]

theorem State.interruptReturn_pc (s : State) : s.interruptReturn.pc = zext9 (s.memRead (s.sp + 8)) := by
  simp [State.interruptReturn, State.popFl_reg, State.popRegs_reg, add_assoc]

@[simp] theorem State.interruptReturn_ictl (s : State) : s.interruptReturn.ictl = .normal := rfl
@[simp] theorem State.interruptReturn_mem (s : State) : s.interruptReturn.mem = s.mem := by
  simp [State.interruptReturn]
@[simp] theorem State.interruptReturn_a0 (s : State) : s.interruptReturn.a0 = s.a0 := by
  simp [State.interruptReturn]
@[simp] theorem State.interruptReturn_ir (s : State) : s.interruptReturn.ir = s.ir := by
  simp [State.interruptReturn]
@[simp] theorem State.interruptReturn_opA (s : State) : s.interruptReturn.opA = s.opA := by
  simp [State.interruptReturn]
@[simp] theorem State.interruptReturn_opB (s : State) : s.interruptReturn.opB = s.opB := by
  simp [State.interruptReturn]
@[simp] theorem State.interruptReturn_runState (s : State) : s.interruptReturn.runState = s.runState := by
  simp [State.interruptReturn]
@[simp] theorem State.interruptReturn_console (s : State) : s.interruptReturn.console = s.console := by
  simp [State.interruptReturn]
@[simp] theorem State.interruptReturn_ext (s : State) : s.interruptReturn.ext = s.ext := by
  simp [State.interruptReturn]
@[simp] theorem State.interruptReturn_memRead (s : State) (x : Byte) :
    s.interruptReturn.memRead x = s.memRead x := by
  simp [State.interruptReturn]

/-! ### pc values -/

theorem zext9_toNat (v : Byte) : (zext9 v).toNat = v.toNat := by
  simp [zext9]; omega

theorem zext9_le (v : Byte) : (zext9 v).toNat ≤ 255 := by
  rw [zext9_toNat]; omega

theorem zext9_low8 {p : PcWord} (h : p.toNat ≤ 255) : zext9 (low8 p) = p := by
  apply BitVec.eq_of_toNat_eq
  simp [zext9, low8]; omega

/-! ### Recognition -/

/-- R214: the least set bit. -/
theorem lowestLine_eq_some {m : Byte} {n : Line} :
    lowestLine m = some n ↔ m.getLsbD n.val = true ∧ ∀ k : Line, k < n → m.getLsbD k.val = false := by
  revert m n; decide

theorem lowestLine_eq_none {m : Byte} : lowestLine m = none ↔ m = 0 := by
  revert m; decide

/-! ### Interrupt entry and the boundary -/

/-- The state with the controller Handling and the taken line's bit clear, pc and FL pushed. -/
def State.entering (s : State) (n : Line) : State :=
  (((s.setIctl .handling).clearLine n).push (low8 s.pc)).push s.fl

/-- The state interrupt entry leaves when pc fits a byte (R216). -/
def State.entered (s : State) (n : Line) : State :=
  (s.entering n).pushRegs.setPc (zext9 ((s.entering n).pushRegs.memRead (vectorAddr n)))

/-- Everything interrupt entry can do (R216). -/
theorem State.interruptEntry_cases (s : State) (n : Line) :
    (255 < s.pc.toNat ∧ s.interruptEntry n = .error (s.raise .addressOutOfRange s.pc none)) ∨
    (s.pc.toNat ≤ 255 ∧ s.interruptEntry n = .ok (s.entered n)) := by
  unfold State.interruptEntry
  split
  · next h => exact .inl ⟨h, rfl⟩
  · next h => exact .inr ⟨by omega, rfl⟩

theorem State.entering_reg (s : State) (n : Line) (j : RegIdx) :
    (s.entering n).reg j =
      if j = spReg then s.sp - 2 else if j = isReg then s.is &&& ~~~ lineBit n else s.reg j := by
  by_cases h : j = spReg
  · subst h; simp [State.entering, State.push_reg, State.clearLine, State.setReg_reg, isReg, spReg, sub_sub]
  · simp [State.entering, State.push_reg, State.clearLine, State.setReg_reg, h]

theorem State.entering_memRead (s : State) (n : Line) (x : Byte) :
    (s.entering n).memRead x =
      if x = s.sp - 2 then s.fl else if x = s.sp - 1 then low8 s.pc else s.memRead x := by
  simp [State.entering, State.push_memRead, State.push_reg, State.clearLine, State.setReg_reg, isReg, spReg, sub_sub]

@[simp] theorem State.entering_pc (s : State) (n : Line) : (s.entering n).pc = s.pc := by
  simp [State.entering, State.clearLine]
@[simp] theorem State.entering_fl (s : State) (n : Line) : (s.entering n).fl = s.fl := by
  simp [State.entering, State.clearLine]
@[simp] theorem State.entering_a0 (s : State) (n : Line) : (s.entering n).a0 = s.a0 := by
  simp [State.entering, State.clearLine]
@[simp] theorem State.entering_ir (s : State) (n : Line) : (s.entering n).ir = s.ir := by
  simp [State.entering, State.clearLine]
@[simp] theorem State.entering_opA (s : State) (n : Line) : (s.entering n).opA = s.opA := by
  simp [State.entering, State.clearLine]
@[simp] theorem State.entering_opB (s : State) (n : Line) : (s.entering n).opB = s.opB := by
  simp [State.entering, State.clearLine]
@[simp] theorem State.entering_ictl (s : State) (n : Line) : (s.entering n).ictl = .handling := by
  simp [State.entering, State.clearLine]
@[simp] theorem State.entering_runState (s : State) (n : Line) : (s.entering n).runState = s.runState := by
  simp [State.entering, State.clearLine]
@[simp] theorem State.entering_console (s : State) (n : Line) : (s.entering n).console = s.console := by
  simp [State.entering, State.clearLine]
@[simp] theorem State.entering_ext (s : State) (n : Line) : (s.entering n).ext = s.ext := by
  simp [State.entering, State.clearLine]

@[simp] theorem State.entered_fl (s : State) (n : Line) : (s.entered n).fl = s.fl := by
  simp [State.entered]
@[simp] theorem State.entered_a0 (s : State) (n : Line) : (s.entered n).a0 = s.a0 := by
  simp [State.entered]
@[simp] theorem State.entered_ir (s : State) (n : Line) : (s.entered n).ir = s.ir := by
  simp [State.entered]
@[simp] theorem State.entered_opA (s : State) (n : Line) : (s.entered n).opA = s.opA := by
  simp [State.entered]
@[simp] theorem State.entered_opB (s : State) (n : Line) : (s.entered n).opB = s.opB := by
  simp [State.entered]
@[simp] theorem State.entered_ictl (s : State) (n : Line) : (s.entered n).ictl = .handling := by
  simp [State.entered]
@[simp] theorem State.entered_runState (s : State) (n : Line) : (s.entered n).runState = s.runState := by
  simp [State.entered]
@[simp] theorem State.entered_console (s : State) (n : Line) : (s.entered n).console = s.console := by
  simp [State.entered]
@[simp] theorem State.entered_ext (s : State) (n : Line) : (s.entered n).ext = s.ext := by
  simp [State.entered]

/-- What entry leaves in the registers: SP nine lower, the taken line's bit of IS clear, the rest as they were. -/
theorem State.entered_reg (s : State) (n : Line) (j : RegIdx) :
    (s.entered n).reg j =
      if j = spReg then s.sp - 9 else if j = isReg then s.is &&& ~~~ lineBit n else s.reg j := by
  by_cases h : j = spReg
  · subst h; simp [State.entered, State.pushRegs_reg, State.entering_reg, sub_sub]
  · simp [State.entered, State.pushRegs_reg, State.entering_reg, h]

/-- The nine bytes of the frame (R217), and nothing else in memory changed. -/
theorem State.entered_memRead (s : State) (n : Line) (x : Byte) :
    (s.entered n).memRead x =
      if x = s.sp - 9 then s.is &&& ~~~ lineBit n else if x = s.sp - 8 then s.reg 5
      else if x = s.sp - 7 then s.reg 4 else if x = s.sp - 6 then s.reg 3 else if x = s.sp - 5 then s.reg 2
      else if x = s.sp - 4 then s.reg 1 else if x = s.sp - 3 then s.reg 0
      else if x = s.sp - 2 then s.fl else if x = s.sp - 1 then low8 s.pc else s.memRead x := by
  simp [State.entered, State.pushRegs_memRead, State.entering_reg, State.entering_memRead, isReg, spReg, sub_sub]

theorem State.entered_pc (s : State) (n : Line) :
    (s.entered n).pc = zext9 ((s.entered n).memRead (vectorAddr n)) := by
  simp [State.entered]

theorem State.entering_wf {s : State} (n : Line) (h : Memory.wf s.mem) : Memory.wf (s.entering n).mem := by
  unfold State.entering State.clearLine
  exact State.push_wf _ (State.push_wf _ (by simpa using h))

theorem State.entered_wf {s : State} (n : Line) (h : Memory.wf s.mem) : Memory.wf (s.entered n).mem := by
  rw [State.entered, State.setPc_mem]
  exact State.pushRegs_wf (State.entering_wf n h)

/-! ### Merging the external requests -/

theorem State.mergeExternal_reg (s : State) (j : RegIdx) :
    s.mergeExternal.reg j = if j = isReg then s.is ||| s.extNow else s.reg j := by
  simp [State.mergeExternal, State.setReg_reg]

@[simp] theorem State.mergeExternal_ext (s : State) : s.mergeExternal.ext = s.ext.tail := rfl
@[simp] theorem State.mergeExternal_memRead (s : State) (x : Byte) : s.mergeExternal.memRead x = s.memRead x := rfl
@[simp] theorem State.mergeExternal_pc (s : State) : s.mergeExternal.pc = s.pc := rfl
@[simp] theorem State.mergeExternal_fl (s : State) : s.mergeExternal.fl = s.fl := rfl
@[simp] theorem State.mergeExternal_a0 (s : State) : s.mergeExternal.a0 = s.a0 := rfl
@[simp] theorem State.mergeExternal_ir (s : State) : s.mergeExternal.ir = s.ir := rfl
@[simp] theorem State.mergeExternal_opA (s : State) : s.mergeExternal.opA = s.opA := rfl
@[simp] theorem State.mergeExternal_opB (s : State) : s.mergeExternal.opB = s.opB := rfl
@[simp] theorem State.mergeExternal_ictl (s : State) : s.mergeExternal.ictl = s.ictl := rfl
@[simp] theorem State.mergeExternal_runState (s : State) : s.mergeExternal.runState = s.runState := rfl
@[simp] theorem State.mergeExternal_console (s : State) : s.mergeExternal.console = s.console := rfl
@[simp] theorem State.mergeExternal_mem (s : State) : s.mergeExternal.mem = s.mem := rfl

/-- Everything step 0 can do (R99). -/
theorem State.boundary_cases (s : State) :
    (s.mergeExternal.recognized = none ∧ s.boundary = .ok s.mergeExternal) ∨
    (∃ n, s.mergeExternal.recognized = some n ∧ s.boundary = s.mergeExternal.interruptEntry n) := by
  cases h : s.mergeExternal.recognized with
  | none => exact .inl ⟨rfl, by simp [State.boundary, h]⟩
  | some n => exact .inr ⟨n, rfl, by simp [State.boundary, h]⟩

theorem State.recognized_eq_some {s : State} {n : Line} :
    s.recognized = some n ↔ s.ictl = .normal ∧ lowestLine (s.im &&& s.is) = some n := by
  unfold State.recognized
  split <;> simp_all

/-! ### The lines -/

theorem lineBit_getLsbD : ∀ (n : Line) (k : Fin 8), (lineBit n).getLsbD k.val = decide (k.val = n.val) := by decide

/-- Clearing a line's bit clears that bit alone. -/
theorem clearLine_getLsbD (m : Byte) (n : Line) {k : Nat} (hk : k < 8) :
    (m &&& ~~~ lineBit n).getLsbD k = (m.getLsbD k && decide (k ≠ n.val)) := by
  have h : (lineBit n).getLsbD k = decide (k = n.val) := lineBit_getLsbD n ⟨k, hk⟩
  rw [BitVec.getLsbD_and, BitVec.getLsbD_not, h]
  simp [hk]

/-- Everything a boundary that goes on can leave. -/
theorem State.boundary_ok {s u : State} (h : s.boundary = .ok u) :
    u = s.mergeExternal ∨ (∃ n, s.mergeExternal.recognized = some n ∧ s.pc.toNat ≤ 255 ∧ u = s.mergeExternal.entered n) := by
  rcases s.boundary_cases with ⟨-, e⟩ | ⟨n, hn, e⟩
  · rw [e] at h; exact .inl (Except.ok.inj h).symm
  · rw [e] at h
    rcases s.mergeExternal.interruptEntry_cases n with ⟨-, e'⟩ | ⟨hp, e'⟩
    · rw [e'] at h; cases h
    · rw [e'] at h; exact .inr ⟨n, hn, hp, (Except.ok.inj h).symm⟩

/-- Everything a boundary that ends the run can leave. -/
theorem State.boundary_error {s t : State} (h : s.boundary = .error t) :
    t = s.mergeExternal.raise .addressOutOfRange s.pc none ∧ 255 < s.pc.toNat := by
  rcases s.boundary_cases with ⟨-, e⟩ | ⟨n, -, e⟩
  · rw [e] at h; cases h
  · rw [e] at h
    rcases s.mergeExternal.interruptEntry_cases n with ⟨hp, e'⟩ | ⟨-, e'⟩
    · rw [e'] at h; cases h; exact ⟨rfl, hp⟩
    · rw [e'] at h; cases h

end Sys2Proof.Machine
end

