-- ==== Sys2Proof/Laws/Exec.lean ====
section
/-! SUPPORT. What an instruction can do: one inversion lemma for `exec`, from which every statement over all instructions
is derived without unfolding a meaning again. -/

namespace Sys2Proof.Machine

/-- Everything a handler can leave, by the shape of its effect. -/
inductive HandlerOutcome (s : State) : Instr → State → Prop where
  /-- A register operand above 7, an INT line above 7, or a CALL return address of 256. -/
  | outOfRange (i : Instr) (h : i.operands ≠ []) : HandlerOutcome s i (s.raiseHere .addressOutOfRange)
  | divByZero (a b : Byte) (i : Instr) (h : i = .div a b ∨ i = .mod a b) :
      HandlerOutcome s i (s.raiseHere .divideByZero)
  | nop : HandlerOutcome s .nop s
  | hlt : HandlerOutcome s .hlt (s.setRunState .halted)
  /-- LDI, LD, the ALU instructions but CMP, and INT. -/
  | register (i : Instr) (d : RegIdx) (v : Byte) (h : i.operands ≠ []) : HandlerOutcome s i (s.setReg d v)
  | st (p q : RegIdx) : HandlerOutcome s (.st (regByte p) (regByte q)) (s.memWrite (s.reg p) (s.reg q))
  | prn (p : RegIdx) : HandlerOutcome s (.prn (regByte p)) (s.emit .prn (s.reg p))
  | pra (p : RegIdx) : HandlerOutcome s (.pra (regByte p)) (s.emit .pra (s.reg p))
  | cmp (p q : RegIdx) : HandlerOutcome s (.cmp (regByte p) (regByte q)) (s.setFl (cmpFlags (s.reg p) (s.reg q)))
  | push (p : RegIdx) (v : Byte) : HandlerOutcome s (.push (regByte p)) (s.push v)
  | pop (p : RegIdx) (v w : Byte) : HandlerOutcome s (.pop (regByte p)) ((s.setReg p v).setReg spReg w)
  | call (p : RegIdx) (v : Byte) (h : s.pc.toNat ≤ 255) :
      HandlerOutcome s (.call (regByte p)) ((s.push (low8 s.pc)).setPc (zext9 v))
  | ret : HandlerOutcome s .ret s.popPc
  | jump (i : Instr) (v : PcWord) (hv : v = s.pc ∨ ∃ b, v = zext9 b)
      (hi : ∃ a, i = .jmp a ∨ i = .jeq a ∨ i = .jne a ∨ i = .jgt a ∨ i = .jlt a ∨ i = .jle a ∨ i = .jge a) :
      HandlerOutcome s i (s.setPc v)
  | iret : HandlerOutcome s .iret s.interruptReturn

theorem aluBinary_next {f : Byte → Byte → Byte} {a b : Byte} {s t : State} {i : Instr}
    (h : aluBinary f a b s = .next t) (hi : i.operands ≠ []) : HandlerOutcome s i t := by
  rcases withRegs_cases h with ⟨p, q, -, -, e⟩ | e <;> cases e
  · exact .register i p _ hi
  · exact .outOfRange i hi

theorem aluDivide_next {f : Byte → Byte → Byte} {a b : Byte} {s t : State} {i : Instr}
    (h : aluDivide f a b s = .next t) (hi : i = .div a b ∨ i = .mod a b) : HandlerOutcome s i t := by
  have hne : i.operands ≠ [] := by rcases hi with rfl | rfl <;> simp [Instr.operands]
  rcases withRegs_cases h with ⟨p, q, -, -, e⟩ | e
  · split at e <;> cases e
    · exact .divByZero a b i hi
    · exact .register i p _ hne
  · cases e; exact .outOfRange i hne

theorem aluUnary_next {f : Byte → Byte} {a : Byte} {s t : State} {i : Instr}
    (h : aluUnary f a s = .next t) (hi : i.operands ≠ []) : HandlerOutcome s i t := by
  rcases withReg_cases h with ⟨p, -, e⟩ | e <;> cases e
  · exact .register i p _ hi
  · exact .outOfRange i hi

theorem jumpIf_next {test : State → Bool} {a : Byte} {s t : State} {i : Instr} (h : jumpIf test a s = .next t)
    (hi : ∃ a, i = .jmp a ∨ i = .jeq a ∨ i = .jne a ∨ i = .jgt a ∨ i = .jlt a ∨ i = .jle a ∨ i = .jge a) :
    HandlerOutcome s i t := by
  have hne : i.operands ≠ [] := by
    obtain ⟨a, rfl | rfl | rfl | rfl | rfl | rfl | rfl⟩ := hi <;> simp [Instr.operands]
  rcases withReg_cases h with ⟨p, -, e⟩ | e <;> cases e
  · refine .jump i _ ?_ hi
    split
    · exact .inr ⟨_, rfl⟩
    · exact .inl rfl
  · exact .outOfRange i hne

/-- What executing an instruction can leave. -/
theorem exec_next {i : Instr} {s t : State} (h : exec i s = .next t) : HandlerOutcome s i t := by
  cases i with
  | nop => cases h; exact .nop
  | hlt => cases h; exact .hlt
  | ldi a b =>
    rcases withReg_cases h with ⟨p, -, e⟩ | e <;> cases e
    · exact .register _ p _ (by simp [Instr.operands])
    · exact .outOfRange _ (by simp [Instr.operands])
  | ld a b =>
    rcases withRegs_cases h with ⟨p, q, -, -, e⟩ | e <;> cases e
    · exact .register _ p _ (by simp [Instr.operands])
    · exact .outOfRange _ (by simp [Instr.operands])
  | st a b =>
    rcases withRegs_cases h with ⟨p, q, rfl, rfl, e⟩ | e <;> cases e
    · exact .st p q
    · exact .outOfRange _ (by simp [Instr.operands])
  | prn a =>
    rcases withReg_cases h with ⟨p, rfl, e⟩ | e <;> cases e
    · exact .prn p
    · exact .outOfRange _ (by simp [Instr.operands])
  | pra a =>
    rcases withReg_cases h with ⟨p, rfl, e⟩ | e <;> cases e
    · exact .pra p
    · exact .outOfRange _ (by simp [Instr.operands])
  | add a b => exact aluBinary_next h (by simp [Instr.operands])
  | sub a b => exact aluBinary_next h (by simp [Instr.operands])
  | mul a b => exact aluBinary_next h (by simp [Instr.operands])
  | div a b => exact aluDivide_next h (.inl rfl)
  | mod a b => exact aluDivide_next h (.inr rfl)
  | cmp a b =>
    rcases withRegs_cases h with ⟨p, q, rfl, rfl, e⟩ | e <;> cases e
    · exact .cmp p q
    · exact .outOfRange _ (by simp [Instr.operands])
  | and a b => exact aluBinary_next h (by simp [Instr.operands])
  | or a b => exact aluBinary_next h (by simp [Instr.operands])
  | xor a b => exact aluBinary_next h (by simp [Instr.operands])
  | shl a b => exact aluBinary_next h (by simp [Instr.operands])
  | shr a b => exact aluBinary_next h (by simp [Instr.operands])
  | not a => exact aluUnary_next h (by simp [Instr.operands])
  | inc a => exact aluUnary_next h (by simp [Instr.operands])
  | dec a => exact aluUnary_next h (by simp [Instr.operands])
  | push a =>
    rcases withReg_cases h with ⟨p, rfl, e⟩ | e <;> cases e
    · exact .push p _
    · exact .outOfRange _ (by simp [Instr.operands])
  | pop a =>
    rcases withReg_cases h with ⟨p, rfl, e⟩ | e <;> cases e
    · exact .pop p _ _
    · exact .outOfRange _ (by simp [Instr.operands])
  | call a =>
    rcases withReg_cases h with ⟨p, rfl, e⟩ | e
    · split at e <;> cases e
      · exact .outOfRange _ (by simp [Instr.operands])
      · exact .call p _ (by omega)
    · cases e; exact .outOfRange _ (by simp [Instr.operands])
  | ret => rw [← Host.Outcome.next.inj h]; exact .ret
  | jmp a => exact jumpIf_next (test := (fun _ => true)) (a := a) h ⟨a, by simp⟩
  | jeq a => exact jumpIf_next (test := (fun s => s.flagE)) (a := a) h ⟨a, by simp⟩
  | jne a => exact jumpIf_next (test := (fun s => !s.flagE)) (a := a) h ⟨a, by simp⟩
  | jgt a => exact jumpIf_next (test := (fun s => s.flagG)) (a := a) h ⟨a, by simp⟩
  | jlt a => exact jumpIf_next (test := (fun s => s.flagL)) (a := a) h ⟨a, by simp⟩
  | jle a => exact jumpIf_next (test := (fun s => !s.flagG)) (a := a) h ⟨a, by simp⟩
  | jge a => exact jumpIf_next (test := (fun s => !s.flagL)) (a := a) h ⟨a, by simp⟩
  | int a =>
    rcases withReg_cases h with ⟨p, rfl, e⟩ | e
    · split at e <;> cases e
      · exact .register _ isReg _ (by simp [Instr.operands])
      · exact .outOfRange _ (by simp [Instr.operands])
    · cases e; exact .outOfRange _ (by simp [Instr.operands])
  | iret => rw [← Host.Outcome.next.inj h]; exact .iret

end Sys2Proof.Machine
end

