-- ==== Sys2Proof/Laws/PerInstr.lean ====
section
/-! SUPPORT. Statements made per instruction. CountLaw: the operand count in the top two bits of the opcode is the number
of operand bytes of the instruction (spec/30_encoding.md R78; spec/40_cycle_nop_hlt.md R102). -/

namespace Sys2Proof.Laws.CountLaw

/-- The count that step 2 of the cycle computes from the opcode is the number of operand bytes the instruction has, and
its length is one more. -/
def Statement (i : Instr) : Prop :=
  operandCount i.opcode = i.operands.length ∧ (encode i).length = 1 + operandCount i.opcode

/-- The law for every row of the table at once. -/
theorem of_table (i : Instr) : Statement i :=
  ⟨operandCount_opcode i, by rw [operandCount_opcode, encode, List.length_cons, Nat.add_comm]⟩

theorem nop : Statement .nop := of_table _
theorem hlt : Statement .hlt := of_table _
theorem ldi (a b : Byte) : Statement (.ldi a b) := of_table _
theorem ld (a b : Byte) : Statement (.ld a b) := of_table _
theorem st (a b : Byte) : Statement (.st a b) := of_table _
theorem prn (a : Byte) : Statement (.prn a) := of_table _
theorem pra (a : Byte) : Statement (.pra a) := of_table _
theorem add (a b : Byte) : Statement (.add a b) := of_table _
theorem sub (a b : Byte) : Statement (.sub a b) := of_table _
theorem mul (a b : Byte) : Statement (.mul a b) := of_table _
theorem div (a b : Byte) : Statement (.div a b) := of_table _
theorem mod (a b : Byte) : Statement (.mod a b) := of_table _
theorem cmp (a b : Byte) : Statement (.cmp a b) := of_table _
theorem and (a b : Byte) : Statement (.and a b) := of_table _
theorem or (a b : Byte) : Statement (.or a b) := of_table _
theorem xor (a b : Byte) : Statement (.xor a b) := of_table _
theorem shl (a b : Byte) : Statement (.shl a b) := of_table _
theorem shr (a b : Byte) : Statement (.shr a b) := of_table _
theorem not (a : Byte) : Statement (.not a) := of_table _
theorem inc (a : Byte) : Statement (.inc a) := of_table _
theorem dec (a : Byte) : Statement (.dec a) := of_table _
theorem push (a : Byte) : Statement (.push a) := of_table _
theorem pop (a : Byte) : Statement (.pop a) := of_table _
theorem call (a : Byte) : Statement (.call a) := of_table _
theorem ret : Statement .ret := of_table _
theorem jmp (a : Byte) : Statement (.jmp a) := of_table _
theorem jeq (a : Byte) : Statement (.jeq a) := of_table _
theorem jne (a : Byte) : Statement (.jne a) := of_table _
theorem jgt (a : Byte) : Statement (.jgt a) := of_table _
theorem jlt (a : Byte) : Statement (.jlt a) := of_table _
theorem jle (a : Byte) : Statement (.jle a) := of_table _
theorem jge (a : Byte) : Statement (.jge a) := of_table _
theorem int (a : Byte) : Statement (.int a) := of_table _
theorem iret : Statement .iret := of_table _

end Sys2Proof.Laws.CountLaw
end

