-- ==== Sys2Proof/Laws/Step.lean ====
section
/-! SUPPORT. What the fetch and one step can do, each said once. -/

namespace Sys2Proof.Machine

theorem State.operandBytes_length (s : State) (a n : Nat) : (s.operandBytes a n).length = n := by
  simp [State.operandBytes]

theorem State.operandBytes_getD (s : State) (a : Nat) {n k : Nat} (h : k < n) (d : Byte) :
    (s.operandBytes a n).getD k d = Memory.read s.mem (a + 1 + k) := by
  simp [State.operandBytes, h]

/-- The state a handler starts from when the instruction at pc is fetched (R91 to R94). -/
def State.fetched (s : State) : State :=
  let ir := Memory.read s.mem s.pc.toNat
  let count := operandCount ir
  ((((s.setA0 s.pc).setIr ir).latchOperands (s.operandBytes s.pc.toNat count))).setPc
    (BitVec.ofNat 9 (s.pc.toNat + 1 + count))

/-- When the whole instruction lies inside memory, what the fetch answers is what the decoder answers. -/
theorem State.fetchDecode_fits {s : State} (h : s.pc.toNat ≤ 255)
    (h' : s.pc.toNat + operandCount (Memory.read s.mem s.pc.toNat) ≤ 255) :
    s.fetchDecode =
      match decode (Memory.read s.mem s.pc.toNat ::
          s.operandBytes s.pc.toNat (operandCount (Memory.read s.mem s.pc.toNat))) with
      | .ok (i, _) => .ok (i, s.fetched)
      | .error _ => .error (s.fetched.raiseHere .unknownOpcode) := by
  have h1 : ¬ 255 < s.pc.toNat := by omega
  have h2 : ¬ 255 < s.pc.toNat + operandCount (Memory.read s.mem s.pc.toNat) := by omega
  simp only [State.fetchDecode, h1, h2, State.setA0_mem, if_false]
  rfl

/-- Everything steps 1 to 5a can do (R91 to R95). -/
theorem State.fetchDecode_cases (s : State) :
    (255 < s.pc.toNat ∧ s.fetchDecode = .error ((s.setA0 s.pc).raise .addressOutOfRange s.pc none)) ∨
    (s.pc.toNat ≤ 255 ∧ ∃ ir, ir = Memory.read s.mem s.pc.toNat ∧
      ((255 < s.pc.toNat + operandCount ir ∧
          s.fetchDecode = .error (((s.setA0 s.pc).setIr ir).raiseHere .malformedInstructionStream)) ∨
        (s.pc.toNat + operandCount ir ≤ 255 ∧
          (((∀ i : Instr, i.opcode ≠ ir) ∧ s.fetchDecode = .error (s.fetched.raiseHere .unknownOpcode)) ∨
            (∃ i : Instr, i.opcode = ir ∧
              dispatch ir ((s.operandBytes s.pc.toNat (operandCount ir)).getD 0 0)
                ((s.operandBytes s.pc.toNat (operandCount ir)).getD 1 0) = some i ∧
              s.fetchDecode = .ok (i, s.fetched)))))) := by
  by_cases h : 255 < s.pc.toNat
  · exact .inl ⟨h, by simp [State.fetchDecode, h]⟩
  · refine .inr ⟨by omega, _, rfl, ?_⟩
    by_cases h' : 255 < s.pc.toNat + operandCount (Memory.read s.mem s.pc.toNat)
    · exact .inl ⟨h', by simp [State.fetchDecode, h, h']⟩
    · refine .inr ⟨by omega, ?_⟩
      rcases decode_cons_cases (Memory.read s.mem s.pc.toNat)
          (s.operandBytes s.pc.toNat (operandCount (Memory.read s.mem s.pc.toNat))) with
        ⟨hl, -⟩ | ⟨-, hn, hd⟩ | ⟨i, hi, -, hdi, hd⟩
      · rw [State.operandBytes_length] at hl; omega
      · exact .inl ⟨hn, by rw [State.fetchDecode_fits (by omega) (by omega), hd]⟩
      · exact .inr ⟨i, hi, hdi, by rw [State.fetchDecode_fits (by omega) (by omega), hd]⟩

/-- Everything one step can answer as a next state (R99). -/
theorem step_next {s t : State} (h : step s = .next t) :
    (s.runState = .halted ∧ t = s) ∨
    (s.runState = .running ∧
      (s.boundary = .error t ∨
        ∃ u, s.boundary = .ok u ∧
          (u.fetchDecode = .error t ∨ ∃ i v, u.fetchDecode = .ok (i, v) ∧ exec i v = .next t))) := by
  unfold step at h
  split at h
  · next hr => cases h; exact .inl ⟨hr, rfl⟩
  · cases h
  · next hr =>
    refine .inr ⟨hr, ?_⟩
    split at h
    · next hb => cases h; exact .inl hb
    · next u hb =>
      refine .inr ⟨u, hb, ?_⟩
      split at h
      · next hf => cases h; exact .inl hf
      · next i v hf => exact .inr ⟨i, v, hf, h⟩

/-- Everything a fetch that goes on to a handler can leave. -/
theorem State.fetchDecode_ok {u v : State} {i : Instr} (h : u.fetchDecode = .ok (i, v)) :
    v = u.fetched ∧ i.opcode = Memory.read u.mem u.pc.toNat ∧ u.pc.toNat ≤ 255 ∧
      u.pc.toNat + operandCount (Memory.read u.mem u.pc.toNat) ≤ 255 := by
  rcases u.fetchDecode_cases with ⟨-, e⟩ | ⟨hp, ir, rfl, ⟨-, e⟩ | ⟨hc, ⟨-, e⟩ | ⟨j, hj, -, e⟩⟩⟩ <;> rw [e] at h <;> cases h
  exact ⟨rfl, hj, hp, hc⟩

/-! ### Bytes in memory -/

theorem State.bytesFrom_cons (u : State) {a : Nat} (h : a ≤ 255) :
    u.bytesFrom a = Memory.read u.mem a :: u.bytesFrom (a + 1) := by
  unfold State.bytesFrom memSize
  obtain ⟨k, hk⟩ : ∃ k, 256 - a = k + 1 := ⟨255 - a, by omega⟩
  have : 256 - (a + 1) = k := by omega
  rw [hk, this, List.range_succ_eq_map]
  simp [Function.comp_def, Nat.add_comm, Nat.add_left_comm]

theorem State.bytesFrom_getD (u : State) {a k : Nat} (h : a + k ≤ 255) (d : Byte) :
    (u.bytesFrom a).getD k d = Memory.read u.mem (a + k) := by
  have : k < 256 - a := by omega
  simp [State.bytesFrom, memSize, this]

end Sys2Proof.Machine
end

