-- ==== Sys2Proof/Tests/Slice0.lean ====
section
/-! SUPPORT. Tests, each on one step of a small state, and a witness for every statement that has hypotheses. The expected
values are those of spec/95_test_vectors.md (the vector's number stands in the comment) or are worked out by hand from
the rules; the bytes of the decoding tests are written out from R76 and R77. FL is 0xAA unless said. -/

namespace Sys2Proof.Tests

open Sys2Proof Sys2Proof.Machine

/-! ### Helpers -/

/-- The state the tests start from: reset, with FL 0xAA. -/
def start : State := State.resetWith 0xAA

/-- Set registers. -/
def withRegisters (s : State) (rs : List (RegIdx × Byte)) : State := rs.foldl (fun s r => s.setReg r.1 r.2) s

/-- Set bytes of memory from an address on. -/
def withBytes (s : State) (a : Nat) (bs : List Byte) : State := { s with mem := Memory.writeBytes s.mem a bs }

/-- The instruction bytes `bs` at `a`, with pc there and the registers `rs` set. -/
def place (a : Nat) (bs : List Byte) (rs : List (RegIdx × Byte)) : State :=
  (withRegisters (withBytes start a bs) rs).setPc (BitVec.ofNat 9 a)

/-- What `f` sees in the state after an outcome, if there is one. -/
def after {α : Type} (r : Result) (f : State → α) : Option α :=
  match r with
  | .next t => some (f t)
  | .fault _ => none
  | .refused _ => none

/-- What `f` sees in the state after one step. -/
def stepped {α : Type} (s : State) (f : State → α) : Option α := after (step s) f

/-- The fault record after one step, with the registers and pc. -/
def faulted (s : State) : Option (Option FaultRecord × PcWord × Vector Byte 8) :=
  stepped s fun t => (t.faultRecord, t.pc, t.regs)

/-- Registers 0 to 7 as at reset. -/
def resetRegs : Vector Byte 8 := #v[0, 0, 0, 0, 0, 0, 0, 0xF4]

/-! ### Well-formedness: each register position refuses 8 and 255, and LDI's immediate is never checked -/

theorem test_wellFormed_refuses_first_operand :
    [Instr.ldi 8 0, .ld 8 0, .st 8 0, .add 8 0, .sub 8 0, .mul 8 0, .div 8 0, .mod 8 0, .cmp 8 0, .and 8 0, .or 8 0,
      .xor 8 0, .shl 8 0, .shr 255 0].all (fun i => !i.wellFormed) = true := by decide

theorem test_wellFormed_refuses_second_operand :
    [Instr.ld 0 8, .st 0 8, .add 0 8, .sub 0 8, .mul 0 8, .div 0 8, .mod 0 8, .cmp 0 8, .and 0 8, .or 0 8, .xor 0 8,
      .shl 0 8, .shr 0 255].all (fun i => !i.wellFormed) = true := by decide

theorem test_wellFormed_refuses_only_operand :
    [Instr.prn 8, .pra 8, .not 8, .inc 8, .dec 8, .push 8, .pop 8, .call 8, .jmp 8, .jeq 8, .jne 8, .jgt 8, .jlt 8,
      .jle 8, .jge 8, .int 255].all (fun i => !i.wellFormed) = true := by decide

theorem test_wellFormed_accepts_seven :
    (rows 7 7).all Instr.wellFormed = true := by decide

theorem test_wellFormed_never_checks_the_immediate :
    (Instr.ldi 7 255).wellFormed = true := by decide

/-! ### Decoding: every row of R76, written out bit by bit -/

theorem test_decode_nop :
    decode [0b00000000, 0xFF] = .ok (.nop, [0xFF]) := by decide

theorem test_decode_hlt :
    decode [0b00000001, 0xFF] = .ok (.hlt, [0xFF]) := by decide

theorem test_decode_ldi :
    decode [0b10000010, 0b00000001, 0b00000010, 0xFF] = .ok (.ldi 1 2, [0xFF]) := by decide

theorem test_decode_ld :
    decode [0b10000011, 0b00000001, 0b00000010, 0xFF] = .ok (.ld 1 2, [0xFF]) := by decide

theorem test_decode_st :
    decode [0b10000100, 0b00000001, 0b00000010, 0xFF] = .ok (.st 1 2, [0xFF]) := by decide

theorem test_decode_prn :
    decode [0b01000111, 0b00000101, 0xFF] = .ok (.prn 5, [0xFF]) := by decide

theorem test_decode_pra :
    decode [0b01001000, 0b00000101, 0xFF] = .ok (.pra 5, [0xFF]) := by decide

theorem test_decode_add :
    decode [0b10100000, 0b00000001, 0b00000010, 0xFF] = .ok (.add 1 2, [0xFF]) := by decide

theorem test_decode_sub :
    decode [0b10100001, 0b00000001, 0b00000010, 0xFF] = .ok (.sub 1 2, [0xFF]) := by decide

theorem test_decode_mul :
    decode [0b10100010, 0b00000001, 0b00000010, 0xFF] = .ok (.mul 1 2, [0xFF]) := by decide

theorem test_decode_div :
    decode [0b10100011, 0b00000001, 0b00000010, 0xFF] = .ok (.div 1 2, [0xFF]) := by decide

theorem test_decode_mod :
    decode [0b10100100, 0b00000001, 0b00000010, 0xFF] = .ok (.mod 1 2, [0xFF]) := by decide

theorem test_decode_cmp :
    decode [0b10100111, 0b00000001, 0b00000010, 0xFF] = .ok (.cmp 1 2, [0xFF]) := by decide

theorem test_decode_and :
    decode [0b10101000, 0b00000001, 0b00000010, 0xFF] = .ok (.and 1 2, [0xFF]) := by decide

theorem test_decode_or :
    decode [0b10101010, 0b00000001, 0b00000010, 0xFF] = .ok (.or 1 2, [0xFF]) := by decide

theorem test_decode_xor :
    decode [0b10101011, 0b00000001, 0b00000010, 0xFF] = .ok (.xor 1 2, [0xFF]) := by decide

theorem test_decode_shl :
    decode [0b10101100, 0b00000001, 0b00000010, 0xFF] = .ok (.shl 1 2, [0xFF]) := by decide

theorem test_decode_shr :
    decode [0b10101101, 0b00000001, 0b00000010, 0xFF] = .ok (.shr 1 2, [0xFF]) := by decide

theorem test_decode_not :
    decode [0b01101001, 0b00000101, 0xFF] = .ok (.not 5, [0xFF]) := by decide

theorem test_decode_inc :
    decode [0b01100101, 0b00000101, 0xFF] = .ok (.inc 5, [0xFF]) := by decide

theorem test_decode_dec :
    decode [0b01100110, 0b00000101, 0xFF] = .ok (.dec 5, [0xFF]) := by decide

theorem test_decode_push :
    decode [0b01000101, 0b00000101, 0xFF] = .ok (.push 5, [0xFF]) := by decide

theorem test_decode_pop :
    decode [0b01000110, 0b00000101, 0xFF] = .ok (.pop 5, [0xFF]) := by decide

theorem test_decode_call :
    decode [0b01010000, 0b00000101, 0xFF] = .ok (.call 5, [0xFF]) := by decide

theorem test_decode_ret :
    decode [0b00010001, 0xFF] = .ok (.ret, [0xFF]) := by decide

theorem test_decode_jmp :
    decode [0b01010100, 0b00000101, 0xFF] = .ok (.jmp 5, [0xFF]) := by decide

theorem test_decode_jeq :
    decode [0b01010101, 0b00000101, 0xFF] = .ok (.jeq 5, [0xFF]) := by decide

theorem test_decode_jne :
    decode [0b01010110, 0b00000101, 0xFF] = .ok (.jne 5, [0xFF]) := by decide

theorem test_decode_jgt :
    decode [0b01010111, 0b00000101, 0xFF] = .ok (.jgt 5, [0xFF]) := by decide

theorem test_decode_jlt :
    decode [0b01011000, 0b00000101, 0xFF] = .ok (.jlt 5, [0xFF]) := by decide

theorem test_decode_jle :
    decode [0b01011001, 0b00000101, 0xFF] = .ok (.jle 5, [0xFF]) := by decide

theorem test_decode_jge :
    decode [0b01011010, 0b00000101, 0xFF] = .ok (.jge 5, [0xFF]) := by decide

theorem test_decode_int :
    decode [0b01010010, 0b00000101, 0xFF] = .ok (.int 5, [0xFF]) := by decide

theorem test_decode_iret :
    decode [0b00010011, 0xFF] = .ok (.iret, [0xFF]) := by decide

theorem test_decode_rejects :
    decode [] = .error .noOpcode ∧ decode [0x02] = .error (.unknownOpcode 0x02) ∧
    decode [0x82, 0x00] = .error (.malformed 0x82) ∧ decode [0xC0, 0x00, 0x00] = .error (.malformed 0xC0) ∧
    decode [0xC0, 0x00, 0x00, 0x00] = .error (.unknownOpcode 0xC0) := by decide

theorem test_decodeTableWord :
    decodeTableWord 24 0x0201A0 = some (.add 1 2) ∧ decodeTableWord 8 0xFF01 = some .hlt ∧ decodeTableWord 8 0x02 = none := by decide

/-! ### One step of each instruction -/

/-- C1. -/
theorem test_nop :
    step (place 0 [0x00] []) = .next { place 0 [0x00] [] with a0 := 0, ir := 0x00, pc := 1 } := rfl

/-- C3. -/
theorem test_nop_at_the_last_byte :
    stepped (place 0xFF [0x00] []) (fun t => (t.pc, t.runState)) = some (0x100, .running) := by decide

/-- C2. -/
theorem test_hlt :
    stepped (place 0 [0x01] []) (fun t => (t.pc, t.runState)) = some (1, .halted) := by decide

/-- D1. -/
theorem test_ldi :
    stepped (place 0 [0x82, 0x00, 0xFF] []) (fun t => (t.reg 0, t.pc)) = some (0xFF, 3) := by decide

/-- D2. -/
theorem test_ldi_to_sp :
    stepped (place 0 [0x82, 0x07, 0x80] []) (fun t => t.sp) = some 0x80 := by decide

/-- D5. -/
theorem test_ld :
    stepped (withBytes (place 0 [0x83, 0x01, 0x02] [(2, 0x80)]) 0x80 [0x5A]) (fun t => t.reg 1) = some 0x5A := by decide

/-- D6. -/
theorem test_ld_source_is_destination :
    stepped (withBytes (place 0 [0x83, 0x00, 0x00] [(0, 0x10)]) 0x10 [0x99]) (fun t => t.reg 0) = some 0x99 := by decide

/-- D9. -/
theorem test_st :
    stepped (place 0 [0x84, 0x00, 0x01] [(0, 0x80), (1, 0x77)]) (fun t => (t.memRead 0x80, t.memRead 0x77)) = some (0x77, 0) := by decide

/-- D12. -/
theorem test_st_into_the_code :
    stepped (place 0 [0x84, 0x00, 0x01] [(0, 0x03), (1, 0x01)]) (fun t => stepped t (fun u => (u.runState, u.pc)))
    = some (some (.halted, 4)) := by decide

/-- O3: `255` and a line feed. -/
theorem test_prn :
    stepped (place 0 [0x47, 0x00] [(0, 0xFF)]) (fun t => (t.console, t.consoleText)) = some ([⟨.prn, 0xFF⟩], [0x32, 0x35, 0x35, 0x0A]) := by decide

/-- O1. -/
theorem test_prn_zero :
    stepped (place 0 [0x47, 0x00] []) (fun t => t.consoleText) = some [0x30, 0x0A] := by decide

/-- O5. -/
theorem test_pra :
    stepped (place 0 [0x48, 0x00] [(0, 0x41)]) (fun t => (t.console, t.consoleText)) = some ([⟨.pra, 0x41⟩], [0x41]) := by decide

/-- V-A, ADD. -/
theorem test_add :
    stepped (place 0 [0b10100000, 0x00, 0x01] [(0, 0xC8), (1, 0x64)]) (fun t => (t.reg 0, t.fl, t.pc)) = some (0x2C, 0xAA, 3) := by decide

/-- V-A, ADD. -/
theorem test_add_corner :
    stepped (place 0 [0b10100000, 0x00, 0x01] [(0, 0xFF), (1, 0x01)]) (fun t => (t.reg 0, t.fl, t.pc)) = some (0x00, 0xAA, 3) := by decide

/-- V-A, SUB. -/
theorem test_sub :
    stepped (place 0 [0b10100001, 0x00, 0x01] [(0, 0x05), (1, 0x0A)]) (fun t => (t.reg 0, t.fl, t.pc)) = some (0xFB, 0xAA, 3) := by decide

/-- V-A, SUB. -/
theorem test_sub_corner :
    stepped (place 0 [0b10100001, 0x00, 0x01] [(0, 0x0A), (1, 0x05)]) (fun t => (t.reg 0, t.fl, t.pc)) = some (0x05, 0xAA, 3) := by decide

/-- V-A, MUL. -/
theorem test_mul :
    stepped (place 0 [0b10100010, 0x00, 0x01] [(0, 0x08), (1, 0x09)]) (fun t => (t.reg 0, t.fl, t.pc)) = some (0x48, 0xAA, 3) := by decide

/-- V-A, MUL. -/
theorem test_mul_corner :
    stepped (place 0 [0b10100010, 0x00, 0x01] [(0, 0xFF), (1, 0xFF)]) (fun t => (t.reg 0, t.fl, t.pc)) = some (0x01, 0xAA, 3) := by decide

/-- V-A, DIV. -/
theorem test_div :
    stepped (place 0 [0b10100011, 0x00, 0x01] [(0, 0x07), (1, 0x02)]) (fun t => (t.reg 0, t.fl, t.pc)) = some (0x03, 0xAA, 3) := by decide

/-- V-A, DIV. -/
theorem test_div_corner :
    stepped (place 0 [0b10100011, 0x00, 0x01] [(0, 0xFF), (1, 0x10)]) (fun t => (t.reg 0, t.fl, t.pc)) = some (0x0F, 0xAA, 3) := by decide

/-- V-A, MOD. -/
theorem test_mod :
    stepped (place 0 [0b10100100, 0x00, 0x01] [(0, 0xC8), (1, 0xC9)]) (fun t => (t.reg 0, t.fl, t.pc)) = some (0xC8, 0xAA, 3) := by decide

/-- V-A, MOD. -/
theorem test_mod_corner :
    stepped (place 0 [0b10100100, 0x00, 0x01] [(0, 0x07), (1, 0x02)]) (fun t => (t.reg 0, t.fl, t.pc)) = some (0x01, 0xAA, 3) := by decide

/-- V-A, AND. -/
theorem test_and :
    stepped (place 0 [0b10101000, 0x00, 0x01] [(0, 0xF0), (1, 0x3C)]) (fun t => (t.reg 0, t.fl, t.pc)) = some (0x30, 0xAA, 3) := by decide

/-- V-A, OR. -/
theorem test_or :
    stepped (place 0 [0b10101010, 0x00, 0x01] [(0, 0x81), (1, 0x18)]) (fun t => (t.reg 0, t.fl, t.pc)) = some (0x99, 0xAA, 3) := by decide

/-- V-A, XOR. -/
theorem test_xor :
    stepped (place 0 [0b10101011, 0x00, 0x01] [(0, 0xFF), (1, 0x0F)]) (fun t => (t.reg 0, t.fl, t.pc)) = some (0xF0, 0xAA, 3) := by decide

/-- V-A, SHL. -/
theorem test_shl :
    stepped (place 0 [0b10101100, 0x00, 0x01] [(0, 0x03), (1, 0x04)]) (fun t => (t.reg 0, t.fl, t.pc)) = some (0x30, 0xAA, 3) := by decide

/-- V-A, SHL. -/
theorem test_shl_corner :
    stepped (place 0 [0b10101100, 0x00, 0x01] [(0, 0xFF), (1, 0x08)]) (fun t => (t.reg 0, t.fl, t.pc)) = some (0x00, 0xAA, 3) := by decide

/-- V-A, SHR. -/
theorem test_shr :
    stepped (place 0 [0b10101101, 0x00, 0x01] [(0, 0xF0), (1, 0x04)]) (fun t => (t.reg 0, t.fl, t.pc)) = some (0x0F, 0xAA, 3) := by decide

/-- V-A, SHR. -/
theorem test_shr_corner :
    stepped (place 0 [0b10101101, 0x00, 0x01] [(0, 0xFF), (1, 0xFF)]) (fun t => (t.reg 0, t.fl, t.pc)) = some (0x00, 0xAA, 3) := by decide

/-- V-A, DIV: x0 stays 05. -/
theorem test_div_by_zero :
    faulted (place 0 [0xA3, 0x00, 0x01] [(0, 0x05)])
    = some (some ⟨.divideByZero, 0, some 0xA3⟩, 3, #v[5, 0, 0, 0, 0, 0, 0, 0xF4]) := by decide

/-- V-A, MOD. -/
theorem test_mod_by_zero :
    faulted (place 0 [0xA4, 0x00, 0x01] []) = some (some ⟨.divideByZero, 0, some 0xA4⟩, 3, resetRegs) := by decide

/-- A1. -/
theorem test_register_check_before_divisor :
    faulted (place 0 [0xA3, 0x09, 0x01] []) = some (some ⟨.addressOutOfRange, 0, some 0xA3⟩, 3, resetRegs) := by decide

/-- V-A, CMP. -/
theorem test_cmp_less_and_greater :
    stepped (place 0 [0xA7, 0x00, 0x01] [(0, 0x00), (1, 0xFF)]) (fun t => (t.fl, t.reg 0)) = some (0x04, 0x00) ∧
    stepped (place 0 [0xA7, 0x00, 0x01] [(0, 0x80), (1, 0x7F)]) (fun t => (t.fl, t.reg 0)) = some (0x02, 0x80) := by decide

/-- V-A, CMP. -/
theorem test_cmp_equal :
    stepped (place 0 [0xA7, 0x00, 0x01] [(0, 0x05), (1, 0x05)]) (fun t => t.fl) = some 0x01 := by decide

/-- U1. -/
theorem test_not :
    stepped (place 0 [0x69, 0x00] [(0, 0x0F)]) (fun t => (t.reg 0, t.pc)) = some (0xF0, 2) := by decide

/-- U3. -/
theorem test_inc :
    stepped (place 0 [0x65, 0x03] [(3, 0xFF)]) (fun t => (t.reg 3, t.fl)) = some (0x00, 0xAA) := by decide

/-- U4. -/
theorem test_dec :
    stepped (place 0 [0x66, 0x01] []) (fun t => (t.reg 1, t.fl)) = some (0xFF, 0xAA) := by decide

/-- S2. -/
theorem test_push_wraps :
    stepped (place 0x10 [0x45, 0x00] [(0, 0x09), (7, 0x00)]) (fun t => (t.sp, t.memRead 0xFF)) = some (0xFF, 0x09) := by decide

/-- S3. -/
theorem test_push_sp :
    stepped (place 0 [0x45, 0x07] []) (fun t => (t.sp, t.memRead 0xF3)) = some (0xF3, 0xF3) := by decide

/-- S6. -/
theorem test_pop_wraps :
    stepped (withBytes (place 0 [0x46, 0x02] [(7, 0xFF)]) 0xFF [0x21]) (fun t => (t.reg 2, t.sp)) = some (0x21, 0x00) := by decide

/-- S7. -/
theorem test_pop_sp :
    stepped (withBytes (place 0 [0x46, 0x07] [(7, 0xF3)]) 0xF3 [0x40]) (fun t => t.sp) = some 0x41 := by decide

/-- J5. -/
theorem test_call :
    stepped (place 0xFD [0x50, 0x00] [(0, 0x12)]) (fun t => (t.sp, t.memRead 0xF3, t.pc)) = some (0xF3, 0xFF, 0x12) := by decide

/-- J6. -/
theorem test_call_return_address_256 :
    faulted (place 0xFE [0x50, 0x00] [(0, 0x12)])
    = some (some ⟨.addressOutOfRange, 0xFE, some 0x50⟩, 0x100, #v[0x12, 0, 0, 0, 0, 0, 0, 0xF4]) := by decide

/-- J9. -/
theorem test_ret :
    stepped (withBytes (place 0x15 [0x11] [(7, 0xF3)]) 0xF3 [0x08]) (fun t => (t.pc, t.sp)) = some (0x08, 0xF4) := by decide

/-- J1. -/
theorem test_jmp :
    stepped (place 0 [0x54, 0x00] [(0, 0x20)]) (fun t => t.pc) = some 0x20 := by decide

/-- The values of FL of the table V-J. -/
def flagValues : List Byte :=
  [0x01, 0x02, 0x04, 0x00, 0x07, 0xAA, 0x03, 0x05, 0x06, 0xF8, 0xFF]

/-- Whether the conditional jump with opcode byte `op` goes to 0x30, for each of those values; not taken is 0x16. -/
def taken (op : Byte) : List (Option PcWord) :=
  flagValues.map fun fl => stepped ((place 0x14 [op, 0x03] [(3, 0x30)]).setFl fl) fun t => t.pc

/-- V-J, JEQ. -/
theorem test_jeq :
    taken 0b01010101 = [some 0x30, some 0x16, some 0x16, some 0x16, some 0x30, some 0x16, some 0x30, some 0x30, some 0x16, some 0x16, some 0x30] := by decide

/-- V-J, JNE. -/
theorem test_jne :
    taken 0b01010110 = [some 0x16, some 0x30, some 0x30, some 0x30, some 0x16, some 0x30, some 0x16, some 0x16, some 0x30, some 0x30, some 0x16] := by decide

/-- V-J, JGT. -/
theorem test_jgt :
    taken 0b01010111 = [some 0x16, some 0x30, some 0x16, some 0x16, some 0x30, some 0x30, some 0x30, some 0x16, some 0x30, some 0x16, some 0x30] := by decide

/-- V-J, JLT. -/
theorem test_jlt :
    taken 0b01011000 = [some 0x16, some 0x16, some 0x30, some 0x16, some 0x30, some 0x16, some 0x16, some 0x30, some 0x30, some 0x16, some 0x30] := by decide

/-- V-J, JLE. -/
theorem test_jle :
    taken 0b01011001 = [some 0x30, some 0x16, some 0x30, some 0x30, some 0x16, some 0x16, some 0x16, some 0x30, some 0x16, some 0x30, some 0x16] := by decide

/-- V-J, JGE. -/
theorem test_jge :
    taken 0b01011010 = [some 0x30, some 0x30, some 0x16, some 0x30, some 0x16, some 0x30, some 0x30, some 0x16, some 0x16, some 0x30, some 0x16] := by decide

/-- J11. -/
theorem test_register_check_before_condition :
    (stepped ((place 0 [0x55, 0x08] []).setFl 0x02) fun t => t.faultRecord)
    = some (some ⟨.addressOutOfRange, 0, some 0x55⟩) := by decide

/-- I2. -/
theorem test_int :
    stepped (place 0 [0x52, 0x02] [(2, 0x07)]) (fun t => (t.is, t.pc)) = some (0x80, 2) := by decide

/-- I4. -/
theorem test_int_line_from_is :
    stepped (place 0 [0x52, 0x06] [(6, 0x03)]) (fun t => t.is) = some 0x0B := by decide

/-- I3. -/
theorem test_int_line_8 :
    faulted (place 0 [0x52, 0x02] [(2, 0x08)])
    = some (some ⟨.addressOutOfRange, 0, some 0x52⟩, 2, #v[0, 0, 8, 0, 0, 0, 0, 0xF4]) := by decide

/-- I18. -/
theorem test_iret :
    stepped (withBytes (place 0x19 [0x13] []) 0xF4 [1, 2, 3, 4, 5, 6, 7, 8, 9])
      (fun t => (t.regs, t.fl, t.pc, t.ictl))
    = some (#v[7, 6, 5, 4, 3, 2, 1, 0xFD], 8, 9, .normal) := by decide

/-! ### The interrupt controller -/

/-- The nine bytes of the frame, in ascending order of address. -/
def frame (s : State) : List Byte := (List.range 9).map fun k => Memory.read s.mem (0xEB + k)

/-- Vector I8: lines 1 and 3 pending and enabled, all registers told apart. -/
def pendingTwo : State :=
  (withBytes (place 0x11 [] [(0, 1), (1, 2), (2, 3), (3, 4), (4, 5), (5, 0xFF), (6, 0x0A)]) 0xF9 [0x40, 0, 0x50]).setFl 0x01

/-- Vector I14: an interrupt due with pc 256. -/
def dueAt256 : State := (place 0x11 [] [(5, 1), (6, 1)]).setPc 0x100

/-- I8. -/
theorem test_entry_lowest_line :
    stepped pendingTwo (fun t => (t.is, t.sp, frame t, t.pc, t.ictl))
    = some (0x08, 0xEB, [8, 0xFF, 5, 4, 3, 2, 1, 1, 0x11], 0x41, .handling) := by decide

/-- I15. -/
theorem test_entry_frame_wraps :
    stepped (withBytes ((place 0x20 [] [(0, 0xA0), (1, 0xA1), (2, 0xA2), (3, 0xA3), (4, 0xA4), (5, 1), (6, 1), (7, 4)]).setFl 1)
      0xF8 [0x80]) (fun t => ((List.range 9).map (fun k => t.memRead (0xFB + BitVec.ofNat 8 k)), t.sp, t.pc))
    = some ([0, 1, 0xA4, 0xA3, 0xA2, 0xA1, 0xA0, 1, 0x20], 0xFB, 0x81) := by decide

/-- I11; the schedule has moved on. -/
theorem test_external_request_taken_at_once :
    stepped (withBytes (((place 0x11 [] [(5, 4)]).setFl 2).setExt [4, 0x10]) 0xFA [0x60]) (fun t => (t.is, frame t, t.pc, t.ext))
    = some (0, [0, 4, 0, 0, 0, 0, 0, 2, 0x11], 0x61, [0x10]) := by decide

/-- I13. -/
theorem test_no_nesting :
    stepped (((place 0x11 [] [(5, 0xFF)]).setIctl .handling).setExt [0x10]) (fun t => (t.is, t.pc, t.ictl))
    = some (0x10, 0x12, .handling) := by decide

/-- I9. -/
theorem test_masked_line_stays_pending :
    stepped (place 0x11 [] [(5, 2), (6, 1)]) (fun t => (t.is, t.pc, t.ictl)) = some (1, 0x12, .normal) := by decide

/-- I14. -/
theorem test_entry_with_pc_256 :
    stepped dueAt256 (fun t => (t.faultRecord, t.ictl, t.is, t.sp)) = some (some ⟨.addressOutOfRange, 0x100, none⟩, .normal, 1, 0xF4) := by decide

/-! ### Faults of the cycle, reset and loading -/

/-- C3, the second step. -/
theorem test_fetch_at_256 :
    stepped (start.setPc 0x100) (fun t => (t.faultRecord, t.pc)) = some (some ⟨.addressOutOfRange, 0x100, none⟩, 0x100) := by decide

/-- C5. -/
theorem test_malformed :
    (stepped (place 0xFE [0x82] []) fun t => (t.faultRecord, t.pc)) = some (some ⟨.malformedInstructionStream, 0xFE, some 0x82⟩, 0xFE) := by decide

/-- C9. -/
theorem test_malformed_before_unknown :
    (stepped (place 0xFD [0xC0] []) fun t => (t.faultRecord, t.pc)) = some (some ⟨.malformedInstructionStream, 0xFD, some 0xC0⟩, 0xFD) := by decide

/-- C7. -/
theorem test_last_bytes_execute :
    stepped (place 0xFD [0x82, 0x00, 0x07] []) (fun t => (t.reg 0, t.pc)) = some (7, 0x100) := by decide

/-- C8. -/
theorem test_unknown_opcode_counts_three :
    (stepped (place 0xFA [0xFF] []) fun t => (t.faultRecord, t.pc)) = some (some ⟨.unknownOpcode, 0xFA, some 0xFF⟩, 0xFE) := by decide

/-- C11. -/
theorem test_unknown_opcode :
    (stepped (place 0x04 [0x02] []) fun t => (t.faultRecord, t.pc)) = some (some ⟨.unknownOpcode, 4, some 0x02⟩, 5) := by decide

/-- R36: nothing more is executed. -/
theorem test_faulted_machine_stops :
    (stepped (place 0x04 [0x02] []) fun t => (match step t with | .fault r => some r | .next _ => none | .refused _ => none))
    = some (some .unknownOpcode) := by decide

/-- R241. -/
theorem test_image_length :
    (start.load (List.replicate 256 1)).isSome = true ∧ (start.load (List.replicate 257 1)).isSome = false := by
  constructor <;> rw [State.load, List.length_replicate] <;> rfl

/-- R230: the byte beyond 255 is absent. -/
theorem test_trace_at_the_end_of_memory :
    (place 0xFE [0x45, 0x07] []).trace = ⟨0xFE, 0xAA, [some 0x45, some 0x07, none], resetRegs⟩ := by decide

/-- The word of `ADD R1,R2` is the first instruction to run. -/
theorem test_withFetchWord :
    stepped (State.reset.withFetchWord 24 0x0201A0) (fun t => (t.ir, t.opA, t.opB, t.pc)) = some (0xA0, 1, 2, 3) := by decide

/-! ### Witnesses: the hypotheses of each statement are met, at the boundary values of each clause -/

/-- Of every clause on an operand byte of 8 or more; the register clauses have the bytes 0 to 7. -/
theorem witness_registerOperandBounds :
    8 ≤ (8 : Byte).toNat ∧ 8 ≤ (255 : Byte).toNat ∧ (regByte 0).toNat = 0 ∧ (regByte 7).toNat = 7 := by decide

theorem witness_BadRegisterOperandFaults :
    (Instr.cmp 7 8).wellFormed = false ∧ HandlerFaults (.cmp 7 8) start .addressOutOfRange := ⟨by decide, rfl⟩

theorem witness_HaltedAndFaultedAreTerminal :
    (start.setRunState .halted).runState = .halted ∧
    (start.setRunState (.faulted ⟨.unknownOpcode, 4, some 2⟩)).runState = .faulted ⟨.unknownOpcode, 4, some 2⟩ := by decide

/-- Also of RunningMachineAlwaysSteps: one step for each of the three ends of a cycle. -/
theorem witness_LoopEndsOnlyByHltOrFault :
    start.runState = .running ∧ (stepped start fun t => t.runState) = some .running ∧
    (stepped (place 0 [0x01] []) fun t => t.runState) = some .halted ∧
    (stepped (start.setPc 0x100) fun t => t.runState) = some (.faulted ⟨.addressOutOfRange, 0x100, none⟩) := by decide

theorem witness_ConsoleHistoryOnlyGrows :
    ∃ t, step (place 0 [0x47, 0x00] []) = .next t ∧ t.console.length = 1 := ⟨_, rfl, by decide⟩

theorem witness_DivModGiveQuotientAndRemainder :
    (withRegisters start [(0, 7), (1, 1)]).reg 1 ≠ 0 ∧
    after (exec (.div (regByte 0) (regByte 1)) (withRegisters start [(0, 7), (1, 1)])) (fun t => t.reg 0) = some 7 ∧
    after (exec (.mod (regByte 0) (regByte 1)) (withRegisters start [(0, 7), (1, 1)])) (fun t => t.reg 0) = some 0 := by decide

/-- Also of FaultingHandlerChangesNothingElse. -/
theorem witness_OnlyDivModRaiseDivideByZero :
    start.reg 1 = 0 ∧ start.runState = .running ∧ exec (.div (regByte 0) (regByte 1)) start =
      .next (faultedState start .divideByZero start.a0 (some start.ir)) ∧
    (faultedState start .divideByZero start.a0 (some start.ir)).runState = .faulted ⟨.divideByZero, 0, some 0⟩ := ⟨rfl, rfl, rfl, rfl⟩

theorem witness_ShiftsUseTheWholeCount :
    8 ≤ ((withRegisters start [(1, 8)]).reg 1).toNat ∧
    after (exec (.shl (regByte 0) (regByte 1)) (withRegisters start [(0, 0xFF), (1, 7)])) (fun t => t.reg 0) = some 0x80 := by decide

theorem witness_OnlyCmpAndIretWriteFlags :
    (∃ t, exec (.add 0 1) start = .next t) ∧ (∀ a b, Instr.add 0 1 ≠ .cmp a b) ∧ Instr.add 0 1 ≠ .iret := ⟨⟨_, rfl⟩, nofun, nofun⟩

theorem witness_PopReadsThenIncrements :
    (0 : RegIdx) ≠ 7 ∧ (7 : RegIdx) = 7 := by decide

theorem witness_CallPushesReturnAddress :
    (start.setPc 0xFF).pc.toNat ≤ 255 ∧ 255 < (start.setPc 0x100).pc.toNat := by decide

theorem witness_CallThenRetResumes :
    (start.setPc 0xFF).pc.toNat ≤ 255 ∧ ∃ t, exec (.call (regByte 0)) (start.setPc 0xFF) = .next t ∧
    ∃ h : State, h.sp = t.sp ∧ h.memRead t.sp = t.memRead t.sp := ⟨by decide, _, rfl, _, rfl, rfl⟩

theorem witness_OnlyControlTransfersWritePc :
    transfersControl (.inc 0) = false ∧ (∃ t, exec (.inc 0) start = .next t) ∧
    ∃ t, exec (.jmp 7) start = .next t ∧ t.pc ≠ start.pc := ⟨rfl, ⟨_, rfl⟩, _, rfl, by decide⟩

theorem witness_IntMakesTheLinePending :
    ((withRegisters start [(2, 7)]).reg 2).toNat ≤ 7 ∧ 8 ≤ ((withRegisters start [(2, 8)]).reg 2).toNat := by decide

theorem witness_QuietBoundaryOnlyMergesRequests :
    (start.setIctl .handling).ictl = .handling ∧
    (withRegisters start [(5, 2), (6, 1)]).im &&& ((withRegisters start [(5, 2), (6, 1)]).is ||| start.ext.headD 0) = 0 := by decide

theorem witness_BoundaryEntersLowestLine :
    pendingTwo.ictl = .normal ∧ (pendingTwo.setPc 0xFF).pc.toNat ≤ 255 ∧ pendingTwo.is ||| pendingTwo.ext.headD 0 = 0x0A ∧
    (pendingTwo.im &&& 0x0A).getLsbD (1 : Line).val = true ∧
    ∀ k : Line, k < 1 → (pendingTwo.im &&& 0x0A).getLsbD k.val = false := by decide

/-- The last line, and no lower one; line 0 has no lower one. -/
theorem witness_BoundaryEntersLowestLine_line7 :
    ((0xFF : Byte) &&& 0x80).getLsbD (7 : Line).val = true ∧
    ∀ k : Line, k < 7 → ((0xFF : Byte) &&& 0x80).getLsbD k.val = false := by decide

theorem witness_EntryWithPc256Faults :
    dueAt256.runState = .running ∧ dueAt256.ictl = .normal ∧ 255 < dueAt256.pc.toNat ∧
    dueAt256.im &&& (dueAt256.is ||| dueAt256.ext.headD 0) ≠ 0 := by decide

theorem witness_InterruptsDoNotNest :
    (start.setIctl .handling).ictl = .handling ∧ (∃ t, exec (.int 0) (start.setIctl .handling) = .next t) ∧
    Instr.int 0 ≠ .iret := ⟨rfl, ⟨_, rfl⟩, nofun⟩

/-- Line 7 enabled, its number in R2, nothing pending, pc 255. -/
def beforeInt : State := (withRegisters start [(2, 7), (5, 0x80)]).setPc 0xFF

theorem witness_IntIsTakenAtNextBoundary :
    (beforeInt.reg 2).toNat ≤ 7 ∧ beforeInt.im.getLsbD (beforeInt.reg 2).toNat = true ∧ beforeInt.im &&& beforeInt.is = 0 ∧
    beforeInt.ext.headD 0 = 0 ∧ beforeInt.ictl = .normal ∧ beforeInt.pc.toNat ≤ 255 := by decide

theorem witness_EntryThenIretRestores :
    pendingTwo.mergeExternal.recognized = some 1 ∧ ∃ t, pendingTwo.boundary = .ok t ∧
    ∃ h : State, h.sp = t.sp ∧
      ∀ k, k < 9 → h.memRead (t.sp + BitVec.ofNat 8 k) = t.memRead (t.sp + BitVec.ofNat 8 k) := ⟨by decide, _, rfl, _, rfl, fun _ _ => rfl⟩

theorem witness_EncodeAfterDecode :
    decode [0x82, 0xFF, 0xFF, 0x01] = .ok (.ldi 0xFF 0xFF, [0x01]) := by decide

/-- The last byte of memory, alone and as the end of a long instruction. -/
theorem witness_StepRunsDecodedInstruction :
    (place 0xFF [0x00] []).runState = .running ∧
    (∃ u, (place 0xFF [0x00] []).boundary = .ok u ∧ decode (u.bytesFrom u.pc.toNat) = .ok (.nop, [])) ∧
    ∃ u, (place 0xFD [0x82, 0x00, 0x07] []).boundary = .ok u ∧ decode (u.bytesFrom u.pc.toNat) = .ok (.ldi 0 7, []) := ⟨rfl, ⟨_, rfl, by decide⟩, _, rfl, by decide⟩

theorem witness_FetchBeyondMemoryFaults :
    (start.setPc 0x100).runState = .running ∧ ∃ u, (start.setPc 0x100).boundary = .ok u ∧ 255 < u.pc.toNat := ⟨rfl, _, rfl, by decide⟩

/-- The smallest overrun, by one byte. -/
theorem witness_OperandsBeyondMemoryFault :
    (place 0xFF [0x40] []).runState = .running ∧ ∃ u, (place 0xFF [0x40] []).boundary = .ok u ∧ u.pc.toNat ≤ 255 ∧
    0x40 = Memory.read u.mem u.pc.toNat ∧ 255 < u.pc.toNat + (0x40 : Byte).toNat / 64 := ⟨rfl, _, rfl, by decide, by decide, by decide⟩

/-- The operand bytes end at the last byte of memory. -/
theorem witness_UnknownOpcodeFaults :
    (place 0xFC [0xC0] []).runState = .running ∧ ∃ u, (place 0xFC [0xC0] []).boundary = .ok u ∧ u.pc.toNat ≤ 255 ∧
    0xC0 = Memory.read u.mem u.pc.toNat ∧ u.pc.toNat + (0xC0 : Byte).toNat / 64 ≤ 255 ∧ ∀ i : Instr, i.opcode ≠ 0xC0 := ⟨rfl, _, rfl, by decide, by decide, by decide, fun i => by cases i <;> simp [Instr.opcode]⟩

theorem witness_HandlersStoreAtMostOneByte :
    (∃ t, exec (.st 0 1) start = .next t) ∧ storedAddr (.st 0 1) start = some 0 ∧ storedAddr (.push 0) start = some 0xF3 ∧
    storedAddr .ret start = none := ⟨⟨_, rfl⟩, by decide, by decide, rfl⟩

theorem witness_CanonicalMemoryIsUnique :
    Memory.wf [(0, 1), (255, 2)] ∧ ¬ Memory.wf [(255, 2), (0, 1)] ∧ ¬ Memory.wf [(0, 0)] ∧ ¬ Memory.wf [(256, 1)] := by decide

/-- Also of ResetOfTheOtherState. -/
theorem witness_ResetAndLoadedMemory :
    (List.replicate 256 (0x01 : Byte)).length ≤ 256 ∧ 256 < (List.replicate 257 (0x01 : Byte)).length := by
  rw [List.length_replicate, List.length_replicate]; decide

theorem witness_ResetOfTheOtherState :
    ∃ t, boot 0x05 [0x01] [0x80] = some t := ⟨_, rfl⟩

theorem witness_StepKeepsInvariant :
    start.Inv ∧ ∃ t, step start = .next t := ⟨⟨by decide, by decide, nofun⟩, _, rfl⟩

end Sys2Proof.Tests
end

section
/-! SUPPORT. The statements about the state (spec/10_state.md): what a handler and a step keep of each field, the
invariant, and reset. -/

namespace Sys2Proof.Machine

/-! ### What a handler keeps of each field -/

/-- Only the handlers of CMP and IRET write FL (R133). -/
theorem HandlerOutcome.fl {s t : State} {i : Instr} (h : HandlerOutcome s i t) (hcmp : ∀ a b, i ≠ .cmp a b)
    (hiret : i ≠ .iret) : t.fl = s.fl := by
  cases h with
  | cmp p q => exact absurd rfl (hcmp _ _)
  | iret => exact absurd rfl hiret
  | _ => rfl

/-- A handler keeps pc, or it transfers control to an address that fits a byte (R28). -/
theorem HandlerOutcome.pc {s t : State} {i : Instr} (h : HandlerOutcome s i t) :
    t.pc = s.pc ∨ transfersControl i = true ∧ t.pc.toNat ≤ 255 := by
  cases h with
  | call p v => exact .inr ⟨rfl, zext9_le v⟩
  | ret => exact .inr ⟨rfl, zext9_le _⟩
  | jump i v hv hi =>
    rcases hv with rfl | ⟨b, rfl⟩
    · exact .inl rfl
    · obtain ⟨a, rfl | rfl | rfl | rfl | rfl | rfl | rfl⟩ := hi <;> exact .inr ⟨rfl, zext9_le b⟩
  | iret => exact .inr ⟨rfl, s.interruptReturn_pc ▸ zext9_le _⟩
  | _ => exact .inl rfl

/-- A handler appends at most one console event (R37). -/
theorem HandlerOutcome.console {s t : State} {i : Instr} (h : HandlerOutcome s i t) :
    ∃ es, t.console = s.console ++ es ∧ es.length ≤ 1 := by
  cases h with
  | prn p => exact ⟨[⟨.prn, s.reg p⟩], rfl, le_rfl⟩
  | pra p => exact ⟨[⟨.pra, s.reg p⟩], rfl, le_rfl⟩
  | _ => exact ⟨[], by simp, zero_le_one⟩

/-- A handler keeps the canonical form of memory. -/
theorem HandlerOutcome.wf {s t : State} {i : Instr} (h : HandlerOutcome s i t) (hs : Memory.wf s.mem) :
    Memory.wf t.mem := by
  cases h with
  | st p q => exact State.memWrite_wf _ _ hs
  | push p v => exact State.push_wf v hs
  | call p v => exact State.push_wf _ hs
  | iret => rwa [State.interruptReturn_mem]
  | _ => exact hs

/-- What a handler makes of the run state: HLT halts, a fault records a0 and IR (R97), and no other changes it. -/
theorem HandlerOutcome.runState {s t : State} {i : Instr} (h : HandlerOutcome s i t) :
    t.runState = s.runState ∨ t.runState = .halted ∨
      t.runState = .faulted ⟨.addressOutOfRange, s.a0, some s.ir⟩ ∨
      (t.runState = .faulted ⟨.divideByZero, s.a0, some s.ir⟩ ∧ ∃ a b, i = .div a b ∨ i = .mod a b) := by
  cases h with
  | outOfRange => exact .inr (.inr (.inl rfl))
  | divByZero a b i hi => exact .inr (.inr (.inr ⟨rfl, a, b, hi⟩))
  | hlt => exact .inr (.inl rfl)
  | iret => exact .inl s.interruptReturn_runState
  | _ => exact .inl rfl

/-- Settles O19, from what a handler can leave (`exec_next`). -/
theorem onlyCmpAndIretWriteFlags : Obligations.OnlyCmpAndIretWriteFlags :=
  fun _ _ _ h hcmp hiret => (exec_next h).fl hcmp hiret

/-- Settles O30, from what a handler can leave (`exec_next`). -/
theorem onlyControlTransfersWritePc : Obligations.OnlyControlTransfersWritePc := by
  intro i s t h
  rcases (exec_next h).pc with hpc | ⟨htr, hle⟩
  · exact ⟨fun _ => hpc, fun hne => absurd hpc hne⟩
  · exact ⟨fun hf => by simp [hf] at htr, fun _ => hle⟩

/-! ### What the fetch leaves -/

@[simp] theorem State.fetched_mem (s : State) : s.fetched.mem = s.mem := rfl
@[simp] theorem State.fetched_a0 (s : State) : s.fetched.a0 = s.pc := rfl
@[simp] theorem State.fetched_ir (s : State) : s.fetched.ir = Memory.read s.mem s.pc.toNat := rfl
@[simp] theorem State.fetched_runState (s : State) : s.fetched.runState = s.runState := rfl
@[simp] theorem State.fetched_console (s : State) : s.fetched.console = s.console := rfl

/-- Step 4 leaves pc just past an instruction that lies inside memory (R94). -/
theorem State.fetched_pc_toNat {s : State}
    (h : s.pc.toNat + operandCount (Memory.read s.mem s.pc.toNat) ≤ 255) :
    s.fetched.pc.toNat = s.pc.toNat + 1 + operandCount (Memory.read s.mem s.pc.toNat) := by
  simp only [State.fetched, State.setPc_pc, BitVec.toNat_ofNat]
  omega

/-- Everything a fetch that ends the run can leave: the three faults of steps 1, 3 and 5a (R91, R93, R95). -/
theorem State.fetchDecode_error {s t : State} (h : s.fetchDecode = .error t) :
    (255 < s.pc.toNat ∧ t = (s.setA0 s.pc).raise .addressOutOfRange s.pc none) ∨
    (s.pc.toNat ≤ 255 ∧ ∃ ir, ir = Memory.read s.mem s.pc.toNat ∧
      ((255 < s.pc.toNat + operandCount ir ∧
          t = ((s.setA0 s.pc).setIr ir).raiseHere .malformedInstructionStream) ∨
        (s.pc.toNat + operandCount ir ≤ 255 ∧ (∀ i : Instr, i.opcode ≠ ir) ∧
          t = s.fetched.raiseHere .unknownOpcode))) := by
  rcases s.fetchDecode_cases with ⟨hp, e⟩ | ⟨hp, ir, hir, ⟨hc, e⟩ | ⟨hc, ⟨hn, e⟩ | ⟨i, -, -, e⟩⟩⟩ <;>
    rw [e] at h <;> cases h
  · exact .inl ⟨hp, rfl⟩
  · exact .inr ⟨hp, ir, hir, .inl ⟨hc, rfl⟩⟩
  · exact .inr ⟨hp, ir, hir, .inr ⟨hc, hn, rfl⟩⟩

/-! ### The console history -/

theorem State.boundary_ok_console {s u : State} (h : s.boundary = .ok u) : u.console = s.console := by
  rcases State.boundary_ok h with rfl | ⟨n, -, -, rfl⟩ <;> simp

theorem State.boundary_error_console {s t : State} (h : s.boundary = .error t) : t.console = s.console := by
  obtain ⟨rfl, -⟩ := State.boundary_error h
  simp

theorem State.fetchDecode_error_console {s t : State} (h : s.fetchDecode = .error t) : t.console = s.console := by
  rcases State.fetchDecode_error h with ⟨-, rfl⟩ | ⟨-, ir, -, ⟨-, rfl⟩ | ⟨-, -, rfl⟩⟩ <;> simp

/-- Settles O11: step 0 and the fetch keep the history, and a handler appends at most one event. -/
theorem consoleHistoryOnlyGrows : Obligations.ConsoleHistoryOnlyGrows := by
  intro s t h
  have same : t.console = s.console → ∃ es, t.console = s.console ++ es ∧ es.length ≤ 1 :=
    fun e => ⟨[], by simp [e], zero_le_one⟩
  rcases step_next h with ⟨-, rfl⟩ | ⟨-, hb | ⟨u, hb, hf | ⟨i, v, hf, he⟩⟩⟩
  · exact same rfl
  · exact same (State.boundary_error_console hb)
  · exact same ((State.fetchDecode_error_console hf).trans (State.boundary_ok_console hb))
  · obtain ⟨rfl, -⟩ := State.fetchDecode_ok hf
    rw [← State.boundary_ok_console hb, ← u.fetched_console]
    exact (exec_next he).console

/-! ### The legal fault records (R201) -/

theorem knownOpcode_opcode (i : Instr) : knownOpcode i.opcode = true := by
  rw [knownOpcode, ← dispatch_isSome _ (i.operands.getD 0 0) (i.operands.getD 1 0), dispatch_opcode]
  rfl

theorem knownOpcode_eq_false {ir : Byte} (h : ∀ i : Instr, i.opcode ≠ ir) : knownOpcode ir = false := by
  rw [knownOpcode, dispatch_eq_none.2 h]
  rfl

theorem FaultRecord.legal_notFetched : FaultRecord.Legal ⟨.addressOutOfRange, 256, none⟩ where
  fetched := nofun
  notFetched := fun _ => ⟨rfl, rfl⟩
  unknown := nofun
  divide := nofun
  outOfRange := nofun
  malformed := nofun

theorem FaultRecord.legal_unknownOpcode {a : PcWord} {ir : Byte} (ha : a.toNat ≤ 255)
    (h : ∀ i : Instr, i.opcode ≠ ir) : FaultRecord.Legal ⟨.unknownOpcode, a, some ir⟩ where
  fetched := fun _ _ => ha
  notFetched := nofun
  unknown := fun _ => ⟨ir, rfl, knownOpcode_eq_false h⟩
  divide := nofun
  outOfRange := nofun
  malformed := nofun

theorem FaultRecord.legal_divideByZero {a : PcWord} {i : Instr} (ha : a.toNat ≤ 255)
    (h : ∃ p q, i = .div p q ∨ i = .mod p q) : FaultRecord.Legal ⟨.divideByZero, a, some i.opcode⟩ where
  fetched := fun _ _ => ha
  notFetched := nofun
  unknown := nofun
  divide := by
    obtain ⟨p, q, rfl | rfl⟩ := h
    · exact fun _ => .inl rfl
    · exact fun _ => .inr rfl
  outOfRange := nofun
  malformed := nofun

theorem FaultRecord.legal_outOfRange {a : PcWord} (ha : a.toNat ≤ 255) (i : Instr) :
    FaultRecord.Legal ⟨.addressOutOfRange, a, some i.opcode⟩ where
  fetched := fun _ _ => ha
  notFetched := nofun
  unknown := nofun
  divide := nofun
  outOfRange := fun _ _ e => Option.some.inj e ▸ knownOpcode_opcode i
  malformed := nofun

theorem FaultRecord.legal_malformed {a : PcWord} {ir : Byte} (ha : a.toNat ≤ 255)
    (h : 255 < a.toNat + operandCount ir) : FaultRecord.Legal ⟨.malformedInstructionStream, a, some ir⟩ where
  fetched := fun _ _ => ha
  notFetched := nofun
  unknown := nofun
  divide := nofun
  outOfRange := nofun
  malformed := fun _ => ⟨ir, rfl, h⟩

/-! ### Each part of the cycle keeps the invariant -/

/-- A state with the memory and pc of one that meets the invariant, and a legal record, meets it too. -/
theorem State.Inv.of_faulted {s t : State} {r : FaultRecord} (h : s.Inv) (hm : t.mem = s.mem) (hp : t.pc = s.pc)
    (ht : t.runState = .faulted r) (hr : r.Legal) : t.Inv where
  mem := hm ▸ h.mem
  pc := hp ▸ h.pc
  record := fun _ e => by
    rw [ht] at e
    exact RunState.faulted.inj e ▸ hr

/-- The one pc past the end of memory that the invariant allows (R29). -/
theorem State.Inv.pc_eq_256 {s : State} (h : s.Inv) (hp : 255 < s.pc.toNat) : s.pc = 256 := by
  have hle := h.pc
  exact BitVec.eq_of_toNat_eq (by simp; omega)

theorem State.Inv.mergeExternal {s : State} (h : s.Inv) : s.mergeExternal.Inv := ⟨h.mem, h.pc, h.record⟩

theorem State.Inv.entered {s : State} (h : s.Inv) (n : Line) : (s.entered n).Inv where
  mem := State.entered_wf n h.mem
  pc := by
    rw [State.entered_pc]
    exact (zext9_le _).trans (by omega)
  record := by
    rw [State.entered_runState]
    exact h.record

theorem State.Inv.boundary_ok {s u : State} (h : s.Inv) (hb : s.boundary = .ok u) : u.Inv := by
  rcases State.boundary_ok hb with rfl | ⟨n, -, -, rfl⟩
  · exact h.mergeExternal
  · exact h.mergeExternal.entered n

theorem State.Inv.boundary_error {s t : State} (h : s.Inv) (hb : s.boundary = .error t) : t.Inv := by
  obtain ⟨rfl, hp⟩ := State.boundary_error hb
  refine h.of_faulted rfl rfl rfl ?_
  rw [h.pc_eq_256 hp]
  exact FaultRecord.legal_notFetched

theorem State.Inv.fetched {s : State} (h : s.Inv)
    (hc : s.pc.toNat + operandCount (Memory.read s.mem s.pc.toNat) ≤ 255) : s.fetched.Inv where
  mem := h.mem
  pc := by
    rw [State.fetched_pc_toNat hc]
    omega
  record := h.record

theorem State.Inv.fetchDecode_error {s t : State} (h : s.Inv) (hf : s.fetchDecode = .error t) : t.Inv := by
  rcases State.fetchDecode_error hf with ⟨hp, rfl⟩ | ⟨hp, ir, rfl, ⟨hc, rfl⟩ | ⟨hc, hn, rfl⟩⟩
  · refine h.of_faulted rfl rfl rfl ?_
    rw [h.pc_eq_256 hp]
    exact FaultRecord.legal_notFetched
  · exact h.of_faulted rfl rfl rfl (FaultRecord.legal_malformed hp hc)
  · exact (h.fetched hc).of_faulted rfl rfl rfl (FaultRecord.legal_unknownOpcode hp hn)

/-- A handler keeps the invariant when, as after a fetch, IR holds its opcode and a0 lies inside memory: the two values
its faults record. -/
theorem State.Inv.exec {s t : State} {i : Instr} (h : s.Inv) (hir : s.ir = i.opcode) (ha0 : s.a0.toNat ≤ 255)
    (he : exec i s = .next t) : t.Inv where
  mem := (exec_next he).wf h.mem
  pc := by
    rcases (exec_next he).pc with hpc | ⟨-, hle⟩
    · exact hpc ▸ h.pc
    · omega
  record := fun r hr => by
    rcases (exec_next he).runState with e | e | e | ⟨e, hi⟩ <;> rw [e] at hr
    · exact h.record r hr
    · cases hr
    · cases hr
      exact hir ▸ FaultRecord.legal_outOfRange ha0 i
    · cases hr
      exact hir ▸ FaultRecord.legal_divideByZero ha0 hi

/-- Settles O56: step 0, the fetch and the handler each keep the invariant. -/
theorem stepKeepsInvariant : Obligations.StepKeepsInvariant := by
  intro s t h hstep
  rcases step_next hstep with ⟨-, rfl⟩ | ⟨-, hb | ⟨u, hb, hf | ⟨i, v, hf, he⟩⟩⟩
  · exact h
  · exact h.boundary_error hb
  · exact (h.boundary_ok hb).fetchDecode_error hf
  · obtain ⟨rfl, hop, hp, hc⟩ := State.fetchDecode_ok hf
    exact ((h.boundary_ok hb).fetched hc).exec hop.symm hp he

/-! ### Terminal states, reset and loading -/

/-- Settles O3, by the first two branches of the step. -/
theorem haltedAndFaultedAreTerminal : Obligations.HaltedAndFaultedAreTerminal :=
  fun s => ⟨fun h => by simp [step, h], fun r h => by simp [step, h]⟩

/-- An image that fits boots: reset, the requests to come, and the image in memory (R241). -/
theorem boot_of_fits (fl : Byte) {image : List Byte} (ext : List Byte) (h : image.length ≤ 256) :
    boot fl image ext = some { (State.resetWith fl).setExt ext with mem := Memory.writeBytes [] 0 image } :=
  if_pos h

/-- An image that does not fit does not boot (R241, D22). -/
theorem boot_of_too_long (fl : Byte) {image : List Byte} (ext : List Byte) (h : 256 < image.length) :
    boot fl image ext = none :=
  if_neg (Nat.not_le.2 h)

/-- An image written to empty memory reads as the image, and as zero beyond it (R39). -/
theorem Memory.read_writeBytes_nil (image : List Byte) (x : Byte) :
    Memory.read (Memory.writeBytes [] 0 image) x.toNat = image.getD x.toNat 0 := by
  rw [Memory.read_writeBytes [] 0 image _ x.isLt]
  split
  · rfl
  · next h => rw [List.getD_eq_default _ _ (by omega)]; rfl

/-- R0 to R6 are 0 at reset, whatever FL (R40, D10). -/
theorem State.resetWith_reg (fl : Byte) {r : RegIdx} (h : r ≠ 7) : (State.resetWith fl).reg r = 0 := by
  have table : ∀ r : RegIdx, r ≠ 7 → regsAtReset[r.val] = 0 := by decide
  exact table r h

/-- Settles O53, by what consecutive writes leave in memory. -/
theorem resetAndLoadedMemory : Obligations.ResetAndLoadedMemory :=
  fun fl image ext h => ⟨_, boot_of_fits fl ext h, rfl, rfl, Memory.read_writeBytes_nil image⟩

/-- Settles O54: loading changes memory alone. -/
theorem resetOfTheOtherState : Obligations.ResetOfTheOtherState := by
  intro fl image ext
  refine ⟨boot_of_too_long fl ext, fun t ht => ?_⟩
  by_cases h : image.length ≤ 256
  · cases (boot_of_fits fl ext h).symm.trans ht
    exact ⟨fun r hr => State.resetWith_reg fl hr, rfl, rfl, rfl, rfl, rfl, rfl⟩
  · cases (boot_of_too_long fl ext (by omega)).symm.trans ht

/-- Settles O55: memory is empty, pc is 0 and no fault is recorded. -/
theorem resetMeetsInvariant : Obligations.ResetMeetsInvariant :=
  ⟨Memory.wf_nil, by decide, nofun⟩

end Sys2Proof.Machine
end

section
/-! SUPPORT. The statements about memory (spec/20_memory.md): the one byte a handler may store, the canonical form as a
unique representation, and the frame of a write. -/

namespace Sys2Proof.Machine

/-! ### What a handler keeps of memory -/

/-- A store frames the address it writes. -/
theorem State.memWrite_keepsMem (s : State) (a v : Byte) : KeepsMem s (s.memWrite a v) [a] :=
  fun _ hx => State.memWrite_memRead_ne s v (List.ne_of_not_mem_cons hx)

/-- A push frames the byte below the top of the stack (R160). -/
theorem State.push_keepsMem (s : State) (v : Byte) : KeepsMem s (s.push v) [s.sp - 1] := fun x hx => by
  rw [State.push_memRead, if_neg (List.ne_of_not_mem_cons hx)]

@[simp] theorem storedAddr_st (p q : RegIdx) (s : State) :
    storedAddr (.st (regByte p) (regByte q)) s = some (s.reg p) := by
  simp [storedAddr]

/-- A handler keeps every byte of memory but the one it stores to (R54). -/
theorem HandlerOutcome.keepsMem {s t : State} {i : Instr} (h : HandlerOutcome s i t) :
    KeepsMem s t (storedAddr i s).toList := by
  cases h with
  | st p q =>
    rw [storedAddr_st]
    exact State.memWrite_keepsMem s _ _
  | push p v => exact State.push_keepsMem s v
  | call p v => exact State.push_keepsMem s _
  | iret => exact fun x _ => s.interruptReturn_memRead x
  | _ => exact fun _ _ => rfl

/-- Settles O51, from what a handler can leave (`exec_next`). -/
theorem handlersStoreAtMostOneByte : Obligations.HandlersStoreAtMostOneByte :=
  fun _ _ _ h => (exec_next h).keepsMem

/-! ### The canonical form is unique -/

/-- Cells in rising order are decided by which cells they are. -/
theorem Memory.eq_of_sorted_of_mem_iff {m n : List Host.Cell} (hm : m.Pairwise fun c d => c.1 < d.1)
    (hn : n.Pairwise fun c d => c.1 < d.1) (h : ∀ c, c ∈ m ↔ c ∈ n) : m = n := by
  have : Std.Irrefl fun c d : Host.Cell => c.1 < d.1 := ⟨fun c => Nat.lt_irrefl c.1⟩
  have : Std.Antisymm fun c d : Host.Cell => c.1 < d.1 := ⟨fun _ _ h h' => absurd h' (Nat.lt_asymm h)⟩
  exact hm.eq_of_mem_iff hn h

/-- Canonical memories that read alike inside the 256 bytes read alike everywhere: beyond them neither lists a cell. -/
theorem Memory.read_eq_of_forall_byte {m n : List Host.Cell} (hm : Memory.wf m) (hn : Memory.wf n)
    (h : ∀ x : Byte, Memory.read m x.toNat = Memory.read n x.toNat) (a : Nat) : Memory.read m a = Memory.read n a := by
  by_cases ha : a < memSize
  · have hx : (BitVec.ofNat 8 a).toNat = a := Nat.mod_eq_of_lt ha
    exact hx ▸ h (BitVec.ofNat 8 a)
  · rw [Memory.read_beyond hm (Nat.le_of_not_lt ha), Memory.read_beyond hn (Nat.le_of_not_lt ha)]

/-- Settles O52: the reads decide which cells are listed (`Memory.mem_iff_read`), and the order is fixed. -/
theorem canonicalMemoryIsUnique : Obligations.CanonicalMemoryIsUnique := by
  intro m n hm hn h
  refine Memory.eq_of_sorted_of_mem_iff hm.1 hn.1 fun c => ?_
  rw [Memory.mem_iff_read hm, Memory.mem_iff_read hn, Memory.read_eq_of_forall_byte hm hn h]

/-! ### A memory write -/

/-- A store leaves the controller, the run state, the latches and the requests to come as they were. -/
theorem State.memWrite_keepsControl (s : State) (a v : Byte) : KeepsControl s (s.memWrite a v) :=
  ⟨rfl, rfl, rfl, rfl, rfl, rfl, rfl⟩

/-- Settles O50, by the read after a write and the frame of a store. -/
theorem memoryWriteReplacesOneByte : Obligations.MemoryWriteReplacesOneByte :=
  fun s a v => ⟨s.memWrite_memRead_same a v, s.memWrite_keepsMem a v, fun r _ => s.memWrite_reg a v r, s.memWrite_pc a v,
    s.memWrite_fl a v, s.memWrite_console a v, s.memWrite_keepsControl a v⟩

end Sys2Proof.Machine
end

section
/-! SUPPORT. The statements about the encoding (spec/30_encoding.md): the decoder answers an instruction exactly on its
encoding, the opcode map is injective, and a bad register operand faults. -/

namespace Sys2Proof

/-! ### Decoding and encoding are inverse -/

/-- The latches a and b hold all the operand bytes of an instruction: it has at most two. -/
theorem take_latches {bs : List Byte} {n : Nat} (hn : n ≤ 2) (hl : n ≤ bs.length) :
    [bs.getD 0 0, bs.getD 1 0].take n = bs.take n := by
  rcases bs with _ | ⟨x, _ | ⟨y, bs⟩⟩
  · obtain rfl : n = 0 := Nat.le_zero.1 hl
    rfl
  · obtain rfl | rfl : n = 0 ∨ n = 1 := Nat.le_one_iff_eq_zero_or_eq_one.1 hl <;> rfl
  · exact (List.take_append_of_le_length (l₁ := [x, y]) (l₂ := bs) hn).symm

/-- The instruction the dispatch table answers carries the first of the bytes given, as many as `IR[7:6]` calls for. -/
theorem operands_of_dispatch_getD {ir : Byte} {bs : List Byte} {i : Instr} (hl : operandCount ir ≤ bs.length)
    (h : dispatch ir (bs.getD 0 0) (bs.getD 1 0) = some i) : i.operands = bs.take (operandCount ir) := by
  have hops := operands_of_dispatch h
  have hle : i.operands.length ≤ 2 := by
    have := congrArg List.length hops
    rw [List.length_take] at this
    exact this ▸ Nat.min_le_right _ 2
  rw [← opcode_of_dispatch h, operandCount_opcode] at hl ⊢
  rw [← take_latches hle hl]
  exact hops

/-- An instruction is decided by its encoding. -/
theorem Instr.eq_of_opcode_of_operands {i j : Instr} (hop : i.opcode = j.opcode) (hops : i.operands = j.operands) :
    i = j := by
  have hi := dispatch_opcode i
  rw [hop, hops, dispatch_opcode] at hi
  exact (Option.some.inj hi).symm

/-- The decoder answers an instruction and a rest on exactly one byte sequence: the encoding, then the rest (R80). -/
theorem decode_eq_ok_iff {bs rest : List Byte} {i : Instr} : decode bs = .ok (i, rest) ↔ bs = encode i ++ rest := by
  constructor
  · intro h
    cases bs with
    | nil => cases h
    | cons ir tl =>
      rcases decode_cons_cases ir tl with ⟨-, e⟩ | ⟨-, -, e⟩ | ⟨j, rfl, hl, hd, e⟩ <;> rw [e] at h <;> cases h
      rw [encode, operands_of_dispatch_getD hl hd, List.cons_append, List.take_append_drop]
  · rintro rfl
    rw [encode, List.cons_append]
    have hn : operandCount i.opcode = i.operands.length := operandCount_opcode i
    rcases decode_cons_cases i.opcode (i.operands ++ rest) with ⟨hl, -⟩ | ⟨-, hno, -⟩ | ⟨j, hj, hl, hd, e⟩
    · rw [hn, List.length_append] at hl
      omega
    · exact absurd rfl (hno i)
    · have hops : j.operands = i.operands := by rw [operands_of_dispatch_getD hl hd, hn, List.take_left]
      rw [e, Instr.eq_of_opcode_of_operands hj hops, hn, List.drop_left]

/-- Settles O41, by `decode_eq_ok_iff`. -/
theorem decodeAfterEncode : Obligations.DecodeAfterEncode :=
  fun _ _ => decode_eq_ok_iff.2 rfl

/-- Settles O42, by `decode_eq_ok_iff`. -/
theorem encodeAfterDecode : Obligations.EncodeAfterDecode :=
  fun _ _ _ h => decode_eq_ok_iff.1 h

/-- Settles O39: each word is the encoding of its instruction. -/
theorem sampleWordsDecode : Obligations.SampleWordsDecode := by
  unfold Obligations.SampleWordsDecode
  simp only [decode_eq_ok_iff]
  decide

/-! ### The opcode map -/

/-- The opcodes of the 34 rows, whatever operand bytes fill the rows. -/
def opcodeTable : List Byte := (rows 0 0).map Instr.opcode

theorem map_opcode_rows (a b : Byte) : (rows a b).map Instr.opcode = opcodeTable := rfl

theorem opcodeTable_length : opcodeTable.length = 34 := rfl

theorem opcodeTable_nodup : opcodeTable.Nodup := by decide

/-- Settles O40, by the distinct values in `opcodeTable` and the dispatch table's answer on an instruction's own opcode. -/
theorem opcodesAreDistinctAndCounted : Obligations.OpcodesAreDistinctAndCounted :=
  ⟨operandCount_opcode, fun a b => ⟨rfl, map_opcode_rows a b ▸ opcodeTable_nodup, fun i =>
    ⟨_, _, List.mem_of_find?_eq_some (dispatch_opcode i)⟩⟩⟩

/-! ### Counting the bytes that are no opcode -/

/-- Of the 256 byte values, as many stand in a list of distinct bytes as the list is long. -/
theorem length_filter_ofNat_mem {l : List Byte} (hl : l.Nodup) :
    ((List.range 256).filter fun n => decide (BitVec.ofNat 8 n ∈ l)).length = l.length := by
  have hperm : ((List.range 256).filter fun n => decide (BitVec.ofNat 8 n ∈ l)).Perm (l.map BitVec.toNat) := by
    refine (List.perm_ext_iff_of_nodup (List.nodup_range.filter _) (hl.map BitVec.toNat_injective)).2 fun n => ?_
    rw [List.mem_filter, List.mem_range, decide_eq_true_iff, List.mem_map]
    constructor
    · rintro ⟨hn, hmem⟩
      exact ⟨_, hmem, Nat.mod_eq_of_lt hn⟩
    · rintro ⟨v, hv, rfl⟩
      exact ⟨v.isLt, by rwa [BitVec.ofNat_toNat, BitVec.setWidth_eq]⟩
  rw [hperm.length_eq, List.length_map]

/-- O43 asks for a byte at each position of the table; that is membership. -/
theorem forall_getElem?_ne_iff_notMem {l : List Byte} {v : Byte} {n : Nat} (hn : l.length = n) :
    (∀ j < n, l[j]? ≠ some v) ↔ v ∉ l := by
  subst hn
  rw [List.mem_iff_getElem?, not_exists]
  exact ⟨fun h j e => h j (List.getElem?_eq_some_iff.1 e).1 e, fun h j _ => h j⟩

/-- Settles O43: 34 of the 256 byte values are opcodes (`opcodeTable_nodup`), and the others are counted. -/
theorem thereAre222UnknownOpcodes : Obligations.ThereAre222UnknownOpcodes := by
  have hknown := length_filter_ofNat_mem opcodeTable_nodup
  have hsum := List.length_eq_length_filter_add (l := List.range 256) fun n => decide (BitVec.ofNat 8 n ∈ opcodeTable)
  have hunknown : ∀ n, decide (∀ j < 34, opcodeTable[j]? ≠ some (BitVec.ofNat 8 n)) =
      !decide (BitVec.ofNat 8 n ∈ opcodeTable) := fun n => by
    rw [← decide_not, decide_eq_decide]
    exact forall_getElem?_ne_iff_notMem opcodeTable_length
  unfold Obligations.ThereAre222UnknownOpcodes
  rw [map_opcode_rows, funext hunknown]
  rw [hknown, opcodeTable_length, List.length_range] at hsum
  omega

end Sys2Proof

namespace Sys2Proof.Machine

/-! ### A bad register operand -/

/-- Every handler with operands in register positions checks them first, in the order of `Instr.regOperands` (R74). -/
theorem exec_checks_regOperands (i : Instr) (s : State) :
    i.regOperands = [] ∨
    (∃ a k, i.regOperands = [a] ∧ exec i s = withReg a s k) ∨
    (∃ a b k, i.regOperands = [a, b] ∧ exec i s = withRegs a b s k) := by
  cases i with
  | nop | hlt | ret | iret => exact .inl rfl
  | ldi a | prn a | pra a | not a | inc a | dec a | push a | pop a | call a | jmp a | jeq a | jne a | jgt a | jlt a
  | jle a | jge a | int a => exact .inr (.inl ⟨a, _, rfl, rfl⟩)
  | ld a b | st a b | add a b | sub a b | mul a b | div a b | mod a b | cmp a b | and a b | or a b | xor a b
  | shl a b | shr a b => exact .inr (.inr ⟨a, b, _, rfl, rfl⟩)

/-- Settles O48: the register checks come first, and one of them fails. -/
theorem badRegisterOperandFaults : Obligations.BadRegisterOperandFaults := by
  intro i s h
  rcases exec_checks_regOperands i s with hr | ⟨a, k, hr, he⟩ | ⟨a, b, k, hr, he⟩
  · simp [Instr.wellFormed, hr] at h
  · have ha : validRegOperand a = false := by simpa [Instr.wellFormed, hr] using h
    exact he.trans (withReg_invalid ha s k)
  · have hab : validRegOperand a = false ∨ validRegOperand b = false := by
      simpa [Instr.wellFormed, hr, imp_iff_not_or] using h
    exact he.trans (withRegs_invalid hab s k)

end Sys2Proof.Machine
end

section
/-! SUPPORT. The statements about the cycle, NOP and HLT (spec/40_cycle_nop_hlt.md): what a Running machine's step
answers, how a run ends, and which handler a fetch runs. -/

namespace Sys2Proof.Machine

/-! ### NOP and HLT -/

/-- Settles O1: the handler answers the state it was given (R103). -/
theorem nopHasNoEffect : Obligations.NopHasNoEffect :=
  ⟨rfl, fun _ => rfl⟩

/-- Settles O2: the handler is one write of the run state (R104). -/
theorem hltHaltsAndKeepsAllElse : Obligations.HltHaltsAndKeepsAllElse :=
  ⟨rfl, fun _ => rfl⟩

/-! ### How a handler ends -/

/-- A handler keeps the run state, or it is HLT's and halts, or it raises a fault and does nothing else (R97, R100). -/
theorem HandlerOutcome.ending {s t : State} {i : Instr} (h : HandlerOutcome s i t) :
    t.runState = s.runState ∨ (i = .hlt ∧ t = s.setRunState .halted) ∨ ∃ cause, t = s.raiseHere cause := by
  cases h with
  | outOfRange => exact .inr (.inr ⟨_, rfl⟩)
  | divByZero => exact .inr (.inr ⟨_, rfl⟩)
  | hlt => exact .inr (.inl ⟨rfl, rfl⟩)
  | iret => exact .inl s.interruptReturn_runState
  | _ => exact .inl rfl

/-- Settles O49: of the three ways a handler ends, only a raised fault takes a Running machine to Faulted. -/
theorem faultingHandlerChangesNothingElse : Obligations.FaultingHandlerChangesNothingElse := by
  intro i s t r hs hexec ht
  rcases (exec_next hexec).ending with he | ⟨-, rfl⟩ | ⟨cause, rfl⟩
  · rw [he, hs] at ht
    cases ht
  · cases ht
  · cases ht
    rfl

/-! ### The step of a Running machine, by how far the cycle gets (R99) -/

theorem step_of_boundary_error {s t : State} (hs : s.runState = .running) (hb : s.boundary = .error t) :
    step s = .next t := by
  simp only [step, hs, hb]

theorem step_of_fetchDecode_error {s u t : State} (hs : s.runState = .running) (hb : s.boundary = .ok u)
    (hf : u.fetchDecode = .error t) : step s = .next t := by
  simp only [step, hs, hb, hf]

theorem step_of_fetchDecode_ok {s u v : State} {i : Instr} (hs : s.runState = .running) (hb : s.boundary = .ok u)
    (hf : u.fetchDecode = .ok (i, v)) : step s = exec i v := by
  simp only [step, hs, hb, hf]

/-! ### How a run ends -/

theorem State.boundary_ok_runState {s u : State} (h : s.boundary = .ok u) : u.runState = s.runState := by
  rcases State.boundary_ok h with rfl | ⟨n, -, -, rfl⟩ <;> simp

theorem State.boundary_error_faulted {s t : State} (h : s.boundary = .error t) : ∃ r, t.runState = .faulted r := by
  obtain ⟨rfl, -⟩ := State.boundary_error h
  exact ⟨_, rfl⟩

theorem State.fetchDecode_error_faulted {s t : State} (h : s.fetchDecode = .error t) :
    ∃ r, t.runState = .faulted r := by
  rcases State.fetchDecode_error h with ⟨-, rfl⟩ | ⟨-, ir, -, ⟨-, rfl⟩ | ⟨-, -, rfl⟩⟩ <;> exact ⟨_, rfl⟩

/-- Settles O4: step 0 and the fetch go on or fault, and a handler ends in one of three ways (`HandlerOutcome.ending`). -/
theorem loopEndsOnlyByHltOrFault : Obligations.LoopEndsOnlyByHltOrFault := by
  intro s t hs hstep
  rcases step_next hstep with ⟨hh, -⟩ | ⟨-, hb | ⟨u, hb, hf | ⟨i, v, hf, he⟩⟩⟩
  · rw [hs] at hh
    cases hh
  · exact .inr (.inl (State.boundary_error_faulted hb))
  · exact .inr (.inl (State.fetchDecode_error_faulted hf))
  · rcases (exec_next he).ending with hr | ⟨rfl, rfl⟩ | ⟨cause, rfl⟩
    · obtain ⟨rfl, -⟩ := State.fetchDecode_ok hf
      rw [u.fetched_runState, State.boundary_ok_runState hb, hs] at hr
      exact .inl hr
    · exact .inr (.inr ⟨u, v, hb, hf, rfl⟩)
    · exact .inr (.inl ⟨_, rfl⟩)

/-! ### A Running machine always steps -/

/-- The operand check answers a next state where the rest of the handler does: a bad byte faults, as a next state. -/
theorem withReg_exists_next {a : Byte} {s : State} {k : RegIdx → Result} (h : ∀ i, ∃ t, k i = .next t) :
    ∃ t, withReg a s k = .next t := by
  rcases withReg_cases (a := a) (s := s) (k := k) rfl with ⟨i, -, e⟩ | e
  · exact e ▸ h i
  · exact ⟨_, e⟩

theorem withRegs_exists_next {a b : Byte} {s : State} {k : RegIdx → RegIdx → Result} (h : ∀ i j, ∃ t, k i j = .next t) :
    ∃ t, withRegs a b s k = .next t :=
  withReg_exists_next fun i => withReg_exists_next (h i)

theorem aluDivide_exists_next (f : Byte → Byte → Byte) (a b : Byte) (s : State) :
    ∃ t, aluDivide f a b s = .next t :=
  withRegs_exists_next fun i j => by split <;> exact ⟨_, rfl⟩

/-- Every handler answers a next state, in every state. -/
theorem exec_exists_next (i : Instr) (s : State) : ∃ t, exec i s = .next t := by
  cases i with
  | nop | hlt | ret | iret => exact ⟨_, rfl⟩
  | ldi | prn | pra | not | inc | dec | push | pop | jmp | jeq | jne | jgt | jlt | jle | jge =>
    exact withReg_exists_next fun _ => ⟨_, rfl⟩
  | ld | st | add | sub | mul | cmp | and | or | xor | shl | shr =>
    exact withRegs_exists_next fun _ _ => ⟨_, rfl⟩
  | div a b | mod a b => exact aluDivide_exists_next _ a b s
  | call | int => exact withReg_exists_next fun _ => by split <;> exact ⟨_, rfl⟩

/-- Settles O5: step 0 or the fetch ends the cycle in a Faulted state, or the handler answers (`exec_exists_next`). -/
theorem runningMachineAlwaysSteps : Obligations.RunningMachineAlwaysSteps := by
  intro s hs
  cases hb : s.boundary with
  | error t => exact ⟨t, step_of_boundary_error hs hb⟩
  | ok u =>
    cases hf : u.fetchDecode with
    | error t => exact ⟨t, step_of_fetchDecode_error hs hb hf⟩
    | ok iv => exact step_of_fetchDecode_ok hs hb hf ▸ exec_exists_next iv.1 iv.2

/-! ### A fetch beyond memory -/

/-- Step 1 at an address that memory does not have (R91). -/
theorem State.fetchDecode_beyond {s : State} (h : 255 < s.pc.toNat) :
    s.fetchDecode = .error ((s.setA0 s.pc).raise .addressOutOfRange s.pc none) := by
  rcases s.fetchDecode_cases with ⟨-, e⟩ | ⟨hle, -⟩
  · exact e
  · omega

/-- Settles O45, by the fault of step 1. -/
theorem fetchBeyondMemoryFaults : Obligations.FetchBeyondMemoryFaults :=
  fun _ _ hs hb hp => step_of_fetchDecode_error hs hb (State.fetchDecode_beyond hp)

/-! ### The fetch of an instruction that lies in memory -/

theorem State.bytesFrom_length (u : State) (a : Nat) : (u.bytesFrom a).length = 256 - a := by
  simp [State.bytesFrom, memSize]

/-- The operand bytes of step 3 are the first bytes in memory after the opcode (R93). -/
theorem State.operandBytes_eq_take (u : State) {a n : Nat} (h : a + n ≤ 255) :
    u.operandBytes a n = (u.bytesFrom (a + 1)).take n := by
  have hmin : min n (256 - (a + 1)) = n := by omega
  rw [State.operandBytes, State.bytesFrom, memSize, ← List.map_take, List.take_range, hmin]

section
variable {u : State} {i : Instr} {rest : List Byte} (h : u.bytesFrom u.pc.toNat = encode i ++ rest)
include h

/-- An instruction read from memory lies inside it. -/
theorem State.pc_add_operands_le_of_bytesFrom : u.pc.toNat + i.operands.length ≤ 255 := by
  have hlen := congrArg List.length h
  rw [State.bytesFrom_length, encode, List.length_append, List.length_cons] at hlen
  omega

/-- The bytes at and after pc, one by one: the opcode, then the operands. -/
theorem State.bytes_of_bytesFrom :
    Memory.read u.mem u.pc.toNat = i.opcode ∧ u.bytesFrom (u.pc.toNat + 1) = i.operands ++ rest := by
  have hfit := State.pc_add_operands_le_of_bytesFrom h
  rw [State.bytesFrom_cons u (by omega), encode, List.cons_append] at h
  exact List.cons.inj h

theorem State.operandBytes_of_bytesFrom : u.operandBytes u.pc.toNat i.operands.length = i.operands := by
  rw [State.operandBytes_eq_take u (State.pc_add_operands_le_of_bytesFrom h), (State.bytes_of_bytesFrom h).2,
    List.take_left]

/-- The fetch answers the instruction whose encoding stands at pc (R91 to R95). -/
theorem State.fetchDecode_of_bytesFrom : u.fetchDecode = .ok (i, u.fetched) := by
  have hfit := State.pc_add_operands_le_of_bytesFrom h
  have hir := (State.bytes_of_bytesFrom h).1
  have hdec : decode (i.opcode :: i.operands) = .ok (i, []) := decode_eq_ok_iff.2 (List.append_nil _).symm
  rw [← operandCount_opcode, ← hir] at hfit
  rw [State.fetchDecode_fits (by omega) hfit, hir, operandCount_opcode, State.operandBytes_of_bytesFrom h, hdec]

/-- What the fetch writes before the handler of the instruction at pc: a0, IR, the operand latches and pc. -/
theorem State.fetched_of_bytesFrom :
    u.fetched = (((u.setA0 u.pc).setIr i.opcode).latchOperands i.operands).setPc
      (BitVec.ofNat 9 (u.pc.toNat + 1 + i.operands.length)) := by
  rw [State.fetched, (State.bytes_of_bytesFrom h).1, operandCount_opcode, State.operandBytes_of_bytesFrom h]

end

/-- Settles O44: what decodes at pc is an encoding (`decode_eq_ok_iff`), and the fetch answers its instruction. -/
theorem stepRunsDecodedInstruction : Obligations.StepRunsDecodedInstruction := by
  intro s u i rest hs hb hdec
  have hbytes := decode_eq_ok_iff.1 hdec
  rw [step_of_fetchDecode_ok hs hb (State.fetchDecode_of_bytesFrom hbytes), State.fetched_of_bytesFrom hbytes]
  rfl

end Sys2Proof.Machine
end

section
/-! SUPPORT. The statements about data movement (spec/41_data_movement.md): the frame of a register write, and the fault
of a byte above 7 in a register position. -/

namespace Sys2Proof.Machine

/-- A register write has that one effect. -/
theorem State.setReg_regEffect (s : State) (d : RegIdx) (v : Byte) : RegEffect s (s.setReg d v) d v where
  value := s.setReg_reg_same d v
  regs := fun _ hr => State.setReg_reg_ne s v (List.ne_of_not_mem_cons hr)
  mem := fun _ _ => rfl
  pc := rfl
  fl := rfl
  console := rfl
  control := ⟨rfl, rfl, rfl, rfl, rfl, rfl, rfl⟩

theorem validRegOperand_eq_false {a : Byte} : validRegOperand a = false ↔ 8 ≤ a.toNat := by
  simp [validRegOperand]

/-- The check is of the whole byte, so a byte of 8 or more in any register position is the fault of R74. -/
theorem handlerFaults_of_mem_regOperands {i : Instr} {a : Byte} (s : State) (hmem : a ∈ i.regOperands)
    (ha : 8 ≤ a.toNat) : HandlerFaults i s .addressOutOfRange := by
  refine badRegisterOperandFaults i s ?_
  rw [Instr.wellFormed, List.all_eq_false]
  exact ⟨a, hmem, by simp [validRegOperand_eq_false.2 ha]⟩

/-- The two-register case: either byte may be the bad one. -/
theorem handlerFaults_of_regOperands_pair {i : Instr} {a b : Byte} (s : State) (hops : i.regOperands = [a, b])
    (hab : 8 ≤ a.toNat ∨ 8 ≤ b.toNat) : HandlerFaults i s .addressOutOfRange := by
  rcases hab with ha | hb
  · exact handlerFaults_of_mem_regOperands s (by simp [hops]) ha
  · exact handlerFaults_of_mem_regOperands s (by simp [hops]) hb

/-! ### The handlers on operand bytes that name registers -/

theorem exec_ldi_regByte (d : RegIdx) (b : Byte) (s : State) :
    exec (.ldi (regByte d) b) s = .next (s.setReg d b) :=
  withReg_regByte d s _

theorem exec_ld_regByte (d p : RegIdx) (s : State) :
    exec (.ld (regByte d) (regByte p)) s = .next (s.setReg d (s.memRead (s.reg p))) :=
  withRegs_regByte d p s _

theorem exec_st_regByte (p q : RegIdx) (s : State) :
    exec (.st (regByte p) (regByte q)) s = .next (s.memWrite (s.reg p) (s.reg q)) :=
  withRegs_regByte p q s _

/-! ### LDI, LD and ST -/

/-- Settles O6: the handler is one register write (R110), and only the first operand byte is checked. -/
theorem ldiLoadsImmediate : Obligations.LdiLoadsImmediate :=
  ⟨fun _ _ => rfl,
    fun s d b => ⟨_, exec_ldi_regByte d b s, s.setReg_regEffect d b⟩,
    fun s _ _ ha => handlerFaults_of_mem_regOperands s (List.mem_singleton_self _) ha⟩

/-- Settles O7: the handler is one register write, of the byte read in the state before it (R111). -/
theorem ldLoadsAddressedByte : Obligations.LdLoadsAddressedByte :=
  ⟨fun _ _ => rfl,
    fun s d p => ⟨_, exec_ld_regByte d p s, s.setReg_regEffect d _⟩,
    fun s _ _ hab => handlerFaults_of_regOperands_pair s rfl hab⟩

/-- Settles O8: the handler is one store (R112), whose effect and frame are O50's. -/
theorem stStoresOneByte : Obligations.StStoresOneByte :=
  ⟨fun _ _ => rfl,
    fun s p q => ⟨_, exec_st_regByte p q s, memoryWriteReplacesOneByte s (s.reg p) (s.reg q)⟩,
    fun s _ _ hab => handlerFaults_of_regOperands_pair s rfl hab⟩

end Sys2Proof.Machine
end

section
/-! SUPPORT. The statements about the console output port (spec/42_console_output.md): the one event PRN and PRA append,
and the decimal text of a PRN event. -/

namespace Sys2Proof.Machine

/-! ### PRN and PRA -/

theorem exec_prn_regByte (p : RegIdx) (s : State) : exec (.prn (regByte p)) s = .next (s.emit .prn (s.reg p)) :=
  withReg_regByte p s _

theorem exec_pra_regByte (p : RegIdx) (s : State) : exec (.pra (regByte p)) s = .next (s.emit .pra (s.reg p)) :=
  withReg_regByte p s _

/-- Settles O9: the handlers are one `emit` each (R121, R122), after the check of their one register byte. -/
theorem printAppendsOneEvent : Obligations.PrintAppendsOneEvent :=
  ⟨fun _ => ⟨rfl, rfl⟩,
    fun s p => ⟨exec_prn_regByte p s, exec_pra_regByte p s⟩,
    fun s _ ha => ⟨handlerFaults_of_mem_regOperands s (List.mem_singleton_self _) ha,
      handlerFaults_of_mem_regOperands s (List.mem_singleton_self _) ha⟩⟩

/-! ### The decimal digits of a byte (R120) -/

/-- The character code of the last decimal digit of k. -/
def digitChar (k : Nat) : Byte := BitVec.ofNat 8 (48 + k % 10)

@[simp] theorem digitChar_toNat (k : Nat) : (digitChar k).toNat = 48 + k % 10 := by
  rw [digitChar, BitVec.toNat_ofNat]
  omega

/-- A digit is `0` only where the number ends in 0. -/
theorem mod_ten_of_digitChar_eq_zero {k : Nat} (h : digitChar k = 0x30) : k % 10 = 0 := by
  have hcode : 48 + k % 10 = 48 := digitChar_toNat k ▸ congrArg BitVec.toNat h
  omega

/-- One, two or three digits, by the size of the value. -/
theorem decimalDigits_cases (v : Byte) :
    (v.toNat < 10 ∧ decimalDigits v = [digitChar v.toNat]) ∨
    (10 ≤ v.toNat ∧ v.toNat < 100 ∧ decimalDigits v = [digitChar (v.toNat / 10), digitChar v.toNat]) ∨
    (100 ≤ v.toNat ∧
      decimalDigits v = [digitChar (v.toNat / 100), digitChar (v.toNat / 10), digitChar v.toNat]) := by
  by_cases h10 : v.toNat < 10
  · exact .inl ⟨h10, if_pos h10⟩
  · by_cases h100 : v.toNat < 100
    · exact .inr (.inl ⟨by omega, h100, (if_neg h10).trans (if_pos h100)⟩)
    · exact .inr (.inr ⟨by omega, (if_neg h10).trans (if_neg h100)⟩)

theorem decimalDigits_ne_nil (v : Byte) : decimalDigits v ≠ [] := by
  rcases decimalDigits_cases v with ⟨-, e⟩ | ⟨-, -, e⟩ | ⟨-, e⟩ <;> rw [e] <;> exact List.cons_ne_nil _ _

/-- Every character is one of the codes of `0` to `9`. -/
theorem toNat_of_mem_decimalDigits {v d : Byte} (h : d ∈ decimalDigits v) : 0x30 ≤ d.toNat ∧ d.toNat ≤ 0x39 := by
  obtain ⟨k, rfl⟩ : ∃ k, d = digitChar k := by
    rcases decimalDigits_cases v with ⟨-, e⟩ | ⟨-, -, e⟩ | ⟨-, e⟩ <;> rw [e] at h <;>
      simp only [List.mem_cons, List.not_mem_nil, or_false] at h
    · exact ⟨_, h⟩
    · rcases h with h | h <;> exact ⟨_, h⟩
    · rcases h with h | h | h <;> exact ⟨_, h⟩
  rw [digitChar_toNat]
  omega

/-- Read in base 10, the digits denote the unsigned value. -/
theorem decimalDigits_foldl (v : Byte) :
    (decimalDigits v).foldl (fun n d => 10 * n + (d.toNat - 0x30)) 0 = v.toNat := by
  have hv : v.toNat < 256 := v.isLt
  rcases decimalDigits_cases v with ⟨h10, e⟩ | ⟨-, h100, e⟩ | ⟨-, e⟩ <;> rw [e] <;>
    simp only [List.foldl_cons, List.foldl_nil, digitChar_toNat] <;> omega

/-- No leading zero: the first of two or three digits is not `0`, so only the one digit of the value 0 is. -/
theorem decimalDigits_eq_of_head? {v : Byte} (h : (decimalDigits v).head? = some 0x30) :
    decimalDigits v = [0x30] := by
  have hv : v.toNat < 256 := v.isLt
  rcases decimalDigits_cases v with ⟨-, e⟩ | ⟨h10, h100, e⟩ | ⟨h100, e⟩ <;> rw [e] at h ⊢ <;>
    have hfirst := Option.some.inj h
  · rw [hfirst]
  · have hzero := mod_ten_of_digitChar_eq_zero hfirst
    omega
  · have hzero := mod_ten_of_digitChar_eq_zero hfirst
    omega

/-- Settles O10: the rendering is `decimalDigits` and a line feed (D19). -/
theorem prnRendersAsDecimal : Obligations.PrnRendersAsDecimal :=
  fun v => ⟨decimalDigits v, rfl, fun _ => toNat_of_mem_decimalDigits, decimalDigits_foldl v, decimalDigits_eq_of_head?,
    decimalDigits_ne_nil v⟩

end Sys2Proof.Machine
end

section
/-! SUPPORT. The statements about the ALU instructions with two register operands (spec/43_alu_binary.md): the exact value
of each ALU function, once, and the one effect of each shape of handler. -/

namespace Sys2Proof.Machine

/-! ### The values the ALU computes (R135 to R145) -/

@[simp] theorem aluAdd_toNat (a b : Byte) : (aluAdd a b).toNat = (a.toNat + b.toNat) % 256 := BitVec.toNat_ofNat _ 8

/-- The remainder of the exact difference, which may be negative, lies between 0 and 255. -/
@[simp] theorem aluSub_toNat (a b : Byte) : ((aluSub a b).toNat : Int) = (a.toNat - b.toNat : Int) % 256 := by
  rw [aluSub, BitVec.toNat_ofInt]
  exact Int.toNat_of_nonneg (Int.emod_nonneg _ (by decide))

@[simp] theorem aluMul_toNat (a b : Byte) : (aluMul a b).toNat = a.toNat * b.toNat % 256 := BitVec.toNat_ofNat _ 8

/-- A natural number no greater than a byte's value is kept whole in a byte. -/
theorem toNat_ofNat_of_le_toNat {n : Nat} {a : Byte} (h : n ≤ a.toNat) : (BitVec.ofNat 8 n).toNat = n :=
  (BitVec.toNat_ofNat n 8).trans (Nat.mod_eq_of_lt (h.trans_lt a.isLt))

@[simp] theorem aluDiv_toNat (a b : Byte) : (aluDiv a b).toNat = a.toNat / b.toNat :=
  toNat_ofNat_of_le_toNat (Nat.div_le_self _ _)

@[simp] theorem aluMod_toNat (a b : Byte) : (aluMod a b).toNat = a.toNat % b.toNat := by
  rw [Nat.mod_eq_sub]
  exact toNat_ofNat_of_le_toNat (Nat.sub_le _ _)

@[simp] theorem aluShl_toNat (a b : Byte) : (aluShl a b).toNat = a.toNat * 2 ^ b.toNat % 256 := BitVec.toNat_ofNat _ 8

@[simp] theorem aluShr_toNat (a b : Byte) : (aluShr a b).toNat = a.toNat / 2 ^ b.toNat :=
  toNat_ofNat_of_le_toNat (Nat.div_le_self _ _)

/-- A count of 8 or more makes the product a multiple of 256 (D13). -/
theorem aluShl_eq_zero (a : Byte) {b : Byte} (h : 8 ≤ b.toNat) : aluShl a b = 0 := by
  have hdvd : 2 ^ 8 ∣ a.toNat * 2 ^ b.toNat := (pow_dvd_pow 2 h).mul_left _
  exact BitVec.eq_of_toNat_eq ((aluShl_toNat a b).trans (Nat.mod_eq_zero_of_dvd hdvd))

/-- A count of 8 or more makes the divisor greater than any byte (D13). -/
theorem aluShr_eq_zero (a : Byte) {b : Byte} (h : 8 ≤ b.toNat) : aluShr a b = 0 := by
  have hlt : a.toNat < 2 ^ b.toNat := a.isLt.trans_le (Nat.pow_le_pow_right two_pos h)
  exact BitVec.eq_of_toNat_eq ((aluShr_toNat a b).trans (Nat.div_eq_of_lt hlt))

/-- The flag byte in the order the spec's rule names its cases: less, greater, equal (R145). -/
theorem cmpFlags_eq_ite (a b : Byte) : cmpFlags a b =
    if a.toNat < b.toNat then 0b00000100 else if b.toNat < a.toNat then 0b00000010 else 0b00000001 := by
  rcases lt_trichotomy a.toNat b.toNat with h | h | h
  · simp [cmpFlags, h, h.ne, h.le]
  · simp [cmpFlags, h]
  · simp [cmpFlags, h, h.ne', h.le]

/-! ### The handlers on operand bytes that name registers -/

section
variable {s : State} {d p : RegIdx} {Q : Byte → Prop}

/-- A handler of the shape `aluBinary` writes register d, and what holds of the function's value holds of the byte
written. -/
theorem aluBinary_effect (f : Byte → Byte → Byte) (hQ : Q (f (s.reg d) (s.reg p))) :
    ∃ t v, aluBinary f (regByte d) (regByte p) s = .next t ∧ RegEffect s t d v ∧ Q v :=
  ⟨_, _, withRegs_regByte d p s _, s.setReg_regEffect d _, hQ⟩

/-- With a divisor that is not 0, so does a handler of the shape `aluDivide`. -/
theorem aluDivide_effect (f : Byte → Byte → Byte) (hp : s.reg p ≠ 0) (hQ : Q (f (s.reg d) (s.reg p))) :
    ∃ t v, aluDivide f (regByte d) (regByte p) s = .next t ∧ RegEffect s t d v ∧ Q v :=
  ⟨_, _, (withRegs_regByte d p s _).trans (if_neg hp), s.setReg_regEffect d _, hQ⟩

end

theorem exec_cmp_regByte (p q : RegIdx) (s : State) :
    exec (.cmp (regByte p) (regByte q)) s = .next (s.setFl (cmpFlags (s.reg p) (s.reg q))) :=
  withRegs_regByte p q s _

/-! ### The statements -/

/-- Settles O12: one register write each, of the exact value modulo 256 (R135 to R137). -/
theorem addSubMulWrapModulo256 : Obligations.AddSubMulWrapModulo256 :=
  ⟨fun _ _ => ⟨rfl, rfl, rfl⟩,
    fun _ _ _ => ⟨aluBinary_effect aluAdd (aluAdd_toNat _ _), aluBinary_effect aluSub (aluSub_toNat _ _),
      aluBinary_effect aluMul (aluMul_toNat _ _)⟩,
    fun s _ _ hab => ⟨handlerFaults_of_regOperands_pair s rfl hab, handlerFaults_of_regOperands_pair s rfl hab,
      handlerFaults_of_regOperands_pair s rfl hab⟩⟩

/-- Settles O13: past the zero check, one register write each, and both values fit in a byte (R138, R139). -/
theorem divModGiveQuotientAndRemainder : Obligations.DivModGiveQuotientAndRemainder :=
  ⟨fun _ _ => ⟨rfl, rfl⟩,
    fun _ _ _ hp => ⟨aluDivide_effect aluDiv hp (aluDiv_toNat _ _), aluDivide_effect aluMod hp (aluMod_toNat _ _)⟩⟩

/-- Settles O15: one register write each, of the word operation whose bits the library gives (R140 to R142). -/
theorem bitwiseOperationsBitByBit : Obligations.BitwiseOperationsBitByBit :=
  ⟨fun _ _ => ⟨rfl, rfl, rfl⟩,
    fun _ _ _ => ⟨aluBinary_effect aluAnd fun _ => BitVec.getLsbD_and, aluBinary_effect aluOr fun _ => BitVec.getLsbD_or,
      aluBinary_effect aluXor fun _ => BitVec.getLsbD_xor⟩,
    fun s _ _ hab => ⟨handlerFaults_of_regOperands_pair s rfl hab, handlerFaults_of_regOperands_pair s rfl hab,
      handlerFaults_of_regOperands_pair s rfl hab⟩⟩

/-- Settles O16: one register write each, with the whole byte as the exponent of 2 (R143, R144). -/
theorem shiftsUseTheWholeCount : Obligations.ShiftsUseTheWholeCount :=
  ⟨fun _ _ => ⟨rfl, rfl⟩,
    fun _ _ _ => ⟨aluBinary_effect aluShl ⟨aluShl_toNat _ _, aluShl_eq_zero _⟩,
      aluBinary_effect aluShr ⟨aluShr_toNat _ _, aluShr_eq_zero _⟩⟩,
    fun s _ _ hab => ⟨handlerFaults_of_regOperands_pair s rfl hab, handlerFaults_of_regOperands_pair s rfl hab⟩⟩

/-- Settles O17: the handler is one write of FL (R145), whose byte `cmpFlags_eq_ite` gives by the unsigned order. -/
theorem cmpWritesExactlyOneFlag : Obligations.CmpWritesExactlyOneFlag := by
  refine ⟨fun _ _ => rfl, fun s p q => ?_, fun s _ _ hab => handlerFaults_of_regOperands_pair s rfl hab⟩
  rw [exec_cmp_regByte, cmpFlags_eq_ite, State.setFl]

end Sys2Proof.Machine
end

section
/-! SUPPORT. The statement about the ALU instructions with one register operand (spec/44_alu_unary.md): the exact value of
each ALU function and the one effect of their handlers. -/

namespace Sys2Proof.Machine

/-! ### The values the ALU computes (R150 to R152) -/

@[simp] theorem aluNot_toNat (a : Byte) : (aluNot a).toNat = 255 - a.toNat := by
  rw [aluNot, BitVec.toNat_ofNat]
  omega

@[simp] theorem aluInc_toNat (a : Byte) : (aluInc a).toNat = (a.toNat + 1) % 256 := BitVec.toNat_ofNat _ 8

/-- A decrement is the subtraction of 1, so 0 wraps to 255. -/
@[simp] theorem aluDec_toNat (a : Byte) : ((aluDec a).toNat : Int) = (a.toNat - 1 : Int) % 256 := aluSub_toNat a 1

/-! ### NOT, INC and DEC -/

/-- A handler of the shape `aluUnary` writes register d, and what holds of the function's value holds of the byte
written. -/
theorem aluUnary_effect {s : State} {d : RegIdx} {Q : Byte → Prop} (f : Byte → Byte) (hQ : Q (f (s.reg d))) :
    ∃ t v, aluUnary f (regByte d) s = .next t ∧ RegEffect s t d v ∧ Q v :=
  ⟨_, _, withReg_regByte d s _, s.setReg_regEffect d _, hQ⟩

/-- Settles O18: one register write each, of the exact value modulo 256 (R150 to R152), after the check of the one
register byte. -/
theorem notIncDecOnOneRegister : Obligations.NotIncDecOnOneRegister :=
  ⟨fun _ => ⟨rfl, rfl, rfl⟩,
    fun _ _ => ⟨aluUnary_effect aluNot (aluNot_toNat _), aluUnary_effect aluInc (aluInc_toNat _),
      aluUnary_effect aluDec (aluDec_toNat _)⟩,
    fun s _ ha => ⟨handlerFaults_of_mem_regOperands s (List.mem_singleton_self _) ha,
      handlerFaults_of_mem_regOperands s (List.mem_singleton_self _) ha,
      handlerFaults_of_mem_regOperands s (List.mem_singleton_self _) ha⟩⟩

end Sys2Proof.Machine
end

section
/-! SUPPORT. The statements about the stack (spec/45_stack.md): the effect of the two primitives, what PUSH and POP of each
register make of the registers, R7 apart (D15), and the round trip. -/

namespace Sys2Proof.Machine

/-- What keeps the control state twice keeps it. -/
theorem KeepsControl.trans {s t u : State} (h : KeepsControl s t) (h' : KeepsControl t u) : KeepsControl s u where
  ictl := h'.ictl.trans h.ictl
  runState := h'.runState.trans h.runState
  a0 := h'.a0.trans h.a0
  ir := h'.ir.trans h.ir
  opA := h'.opA.trans h.opA
  opB := h'.opB.trans h.opB
  ext := h'.ext.trans h.ext

/-! ### The primitives (R160 to R162) -/

@[simp] theorem State.push_sp (s : State) (v : Byte) : (s.push v).sp = s.sp - 1 := by
  rw [State.sp, State.push_reg, if_pos rfl]

@[simp] theorem State.push_memRead_top (s : State) (v : Byte) : (s.push v).memRead (s.sp - 1) = v := by
  rw [State.push_memRead, if_pos rfl]

theorem State.push_keepsRegs (s : State) (v : Byte) : KeepsRegs s (s.push v) [spReg] := fun r hr => by
  rw [State.push_reg, if_neg (List.ne_of_not_mem_cons hr)]

theorem State.push_keepsControl (s : State) (v : Byte) : KeepsControl s (s.push v) :=
  (s.setReg_regEffect spReg _).control.trans (State.memWrite_keepsControl _ _ _)

/-- Settles O20: a push is a register write and a store, a pop is one register write. -/
theorem stackPrimitivesMoveSpByOne : Obligations.StackPrimitivesMoveSpByOne :=
  fun s v => ⟨⟨s.push_sp v, s.push_memRead_top v, s.push_keepsRegs v, s.push_keepsMem v, s.push_pc v, s.push_fl v,
    s.push_console v, s.push_keepsControl v⟩, rfl, s.setReg_regEffect spReg _⟩

/-! ### PUSH (R163) -/

/-- The byte PUSH pushes: register p, read after SP is decremented (D15). -/
def State.pushOperand (s : State) (p : RegIdx) : Byte := if p = spReg then s.sp - 1 else s.reg p

/-- PUSH is one push of its operand. -/
theorem exec_push_regByte (p : RegIdx) (s : State) :
    exec (.push (regByte p)) s = .next (s.push (s.pushOperand p)) := by
  have hread : (s.setReg spReg (s.sp - 1)).reg p = s.pushOperand p := s.setReg_reg spReg p _
  rw [← hread]
  exact withReg_regByte p s _

/-- Settles O21: the handler is one push (R163), whose effect and frame are O20's. -/
theorem pushDecrementsThenWrites : Obligations.PushDecrementsThenWrites :=
  ⟨fun _ => rfl,
    fun s p => ⟨_, exec_push_regByte p s, (stackPrimitivesMoveSpByOne s _).1⟩,
    fun s _ ha => handlerFaults_of_mem_regOperands s (List.mem_singleton_self _) ha⟩

/-! ### POP (R164) -/

/-- What POP leaves: the popped byte in register p, then SP incremented, as that write left it (D15). -/
def State.popInto (s : State) (p : RegIdx) : State :=
  let t := s.setReg p s.popValue
  t.setReg spReg (t.sp + 1)

theorem exec_pop_regByte (p : RegIdx) (s : State) : exec (.pop (regByte p)) s = .next (s.popInto p) :=
  withReg_regByte p s _

/-- For a register other than R7, SP is one more. -/
theorem State.popInto_sp {p : RegIdx} (s : State) (hp : p ≠ spReg) : (s.popInto p).sp = s.sp + 1 := by
  rw [State.popInto, State.sp, State.setReg_reg_same, State.sp, State.setReg_reg_ne _ _ hp.symm]

/-- For R7, SP is the popped byte plus one. -/
theorem State.popInto_spReg_sp (s : State) : (s.popInto spReg).sp = s.popValue + 1 := by
  rw [State.popInto, State.sp, State.setReg_reg_same, State.sp, State.setReg_reg_same]

theorem State.popInto_reg_same {p : RegIdx} (s : State) (hp : p ≠ spReg) : (s.popInto p).reg p = s.popValue := by
  rw [State.popInto, State.setReg_reg_ne _ _ hp, State.setReg_reg_same]

theorem State.popInto_keepsRegs (s : State) (p : RegIdx) : KeepsRegs s (s.popInto p) [p, spReg] := fun r hr => by
  obtain ⟨hp, hsp⟩ : r ≠ p ∧ r ≠ spReg := by simpa using hr
  rw [State.popInto, State.setReg_reg_ne _ _ hsp, State.setReg_reg_ne _ _ hp]

@[simp] theorem State.popInto_memRead (s : State) (p : RegIdx) (x : Byte) :
    (s.popInto p).memRead x = s.memRead x := rfl
@[simp] theorem State.popInto_pc (s : State) (p : RegIdx) : (s.popInto p).pc = s.pc := rfl
@[simp] theorem State.popInto_fl (s : State) (p : RegIdx) : (s.popInto p).fl = s.fl := rfl
@[simp] theorem State.popInto_console (s : State) (p : RegIdx) : (s.popInto p).console = s.console := rfl

theorem State.popInto_keepsControl (s : State) (p : RegIdx) : KeepsControl s (s.popInto p) :=
  (s.setReg_regEffect p _).control.trans (State.setReg_regEffect _ spReg _).control

/-- Settles O22: the handler is two register writes (R164), and for R7 the second reads what the first wrote. -/
theorem popReadsThenIncrements : Obligations.PopReadsThenIncrements :=
  ⟨fun _ => rfl,
    fun s p => ⟨_, exec_pop_regByte p s, fun hp => ⟨s.popInto_reg_same hp, s.popInto_sp hp⟩,
      fun hp => hp ▸ s.popInto_spReg_sp, s.popInto_keepsRegs p, fun x _ => s.popInto_memRead p x, s.popInto_pc p,
      s.popInto_fl p, s.popInto_console p, s.popInto_keepsControl p⟩,
    fun s _ ha => handlerFaults_of_mem_regOperands s (List.mem_singleton_self _) ha⟩

/-! ### The round trip (R165) -/

@[simp] theorem State.push_popValue (s : State) (v : Byte) : (s.push v).popValue = v := by
  rw [State.popValue, State.push_sp, State.push_memRead_top]

/-- SP comes back by the pop's increment, and for R7 by way of the byte read back from memory. -/
theorem State.push_popInto_sp (s : State) (p : RegIdx) : ((s.push (s.pushOperand p)).popInto p).sp = s.sp := by
  by_cases hp : p = spReg
  · subst hp
    rw [State.popInto_spReg_sp, State.push_popValue, State.pushOperand, if_pos rfl, sub_add_cancel]
  · rw [State.popInto_sp _ hp, State.push_sp, sub_add_cancel]

/-- PUSH then POP of a register restores SP, that register, and every other one. -/
theorem State.push_popInto_reg (s : State) (p r : RegIdx) : ((s.push (s.pushOperand p)).popInto p).reg r = s.reg r := by
  by_cases hsp : r = spReg
  · subst hsp
    exact s.push_popInto_sp p
  · by_cases hp : r = p
    · subst hp
      rw [State.popInto_reg_same _ hsp, State.push_popValue, State.pushOperand, if_neg hsp]
    · rw [State.popInto_keepsRegs _ p r (by simp [hp, hsp]), State.push_keepsRegs s _ r (by simp [hsp])]

/-- Settles O23: the registers by `State.push_popInto_reg`, and all else by the frames of the push and of the pop. -/
theorem pushThenPopRestores : Obligations.PushThenPopRestores :=
  fun s p => ⟨_, _, exec_push_regByte p s, exec_pop_regByte p _, fun r _ => s.push_popInto_reg p r,
    s.push_keepsMem _, rfl, rfl, rfl, (s.push_keepsControl _).trans (State.popInto_keepsControl _ p)⟩

end Sys2Proof.Machine
end

section
/-! SUPPORT. The statements about control transfer (spec/46_control_transfer.md): the effect of CALL and RET and their
round trip, the one effect of a jump, and what the conditional jumps test after a CMP. -/

namespace Sys2Proof.Machine

/-- A write of pc has that one effect. -/
theorem State.setPc_pcEffect (s : State) (v : PcWord) : PcEffect s (s.setPc v) v where
  value := rfl
  regs := fun _ _ => rfl
  mem := fun _ _ => rfl
  fl := rfl
  console := rfl
  control := ⟨rfl, rfl, rfl, rfl, rfl, rfl, rfl⟩

/-- The one-register case of the check of register operands. -/
theorem handlerFaults_of_regOperands_singleton {i : Instr} {a : Byte} (s : State) (hops : i.regOperands = [a])
    (ha : 8 ≤ a.toNat) : HandlerFaults i s .addressOutOfRange :=
  handlerFaults_of_mem_regOperands s (by simp [hops]) ha

/-! ### CALL (R170) -/

/-- What CALL leaves: the return address pushed and pc at register p, read after the push (D15), as PUSH reads its
operand. -/
def State.called (s : State) (p : RegIdx) : State := (s.push (low8 s.pc)).setPc (zext9 (s.pushOperand p))

theorem exec_call_regByte {s : State} (p : RegIdx) (hpc : s.pc.toNat ≤ 255) :
    exec (.call (regByte p)) s = .next (s.called p) := by
  have htarget : (s.push (low8 s.pc)).reg p = s.pushOperand p := s.push_reg _ p
  rw [State.called, ← htarget]
  exact (withReg_regByte p s _).trans (if_neg hpc.not_gt)

/-- A return address of 256 does not fit a stack byte (D9). -/
theorem exec_call_regByte_faults {s : State} (p : RegIdx) (hpc : 255 < s.pc.toNat) :
    HandlerFaults (.call (regByte p)) s .addressOutOfRange :=
  (withReg_regByte p s _).trans (if_pos hpc)

@[simp] theorem State.called_sp (s : State) (p : RegIdx) : (s.called p).sp = s.sp - 1 := s.push_sp (low8 s.pc)

@[simp] theorem State.called_memRead_top (s : State) (p : RegIdx) :
    (s.called p).memRead (s.sp - 1) = low8 s.pc := s.push_memRead_top (low8 s.pc)

theorem low8_toNat {p : PcWord} (h : p.toNat ≤ 255) : (low8 p).toNat = p.toNat := by
  rw [← zext9_toNat, zext9_low8 h]

/-- Settles O24: past the register check and the check of pc, the handler is one push, whose effect and frame are O20's,
and one write of pc (R170). -/
theorem callPushesReturnAddress : Obligations.CallPushesReturnAddress := by
  refine ⟨fun _ => rfl, fun s p hpc => ⟨_, exec_call_regByte p hpc, ?_⟩,
    fun _ => exec_call_regByte_faults,
    fun s _ ha => handlerFaults_of_regOperands_singleton s rfl ha⟩
  have hret : ((s.called p).memRead (s.sp - 1)).toNat = s.pc.toNat := by
    rw [State.called_memRead_top, low8_toNat hpc]
  exact ⟨hret, s.called_sp p, zext9_toNat _, s.push_keepsRegs (low8 s.pc), s.push_keepsMem (low8 s.pc), rfl,
    rfl, (s.push_keepsControl (low8 s.pc)).trans (State.setPc_pcEffect _ _).control⟩

/-! ### RET (R171) -/

theorem exec_ret (s : State) : exec .ret s = .next s.popPc := rfl

@[simp] theorem State.popPc_sp (s : State) : s.popPc.sp = s.sp + 1 := by
  rw [State.sp, State.popPc_reg, if_pos rfl]

/-- Settles O25: the handler is one pop, a write of SP alone (O20), and one write of pc (R171). -/
theorem retPopsPc : Obligations.RetPopsPc := by
  refine ⟨rfl, fun s => ⟨_, exec_ret s, ?_⟩⟩
  have hpop : RegEffect s s.popState spReg (s.sp + 1) := s.setReg_regEffect spReg _
  exact ⟨zext9_toNat _, s.popPc_sp, hpop.regs, fun x _ => s.popPc_memRead x, s.popPc_fl, s.popPc_console,
    hpop.control.trans (State.setPc_pcEffect _ _).control⟩

/-! ### The round trip (R181) -/

/-- Settles O29: the RET finds the pushed byte at CALL's SP, which is all it reads, and its increment undoes the push's
decrement. -/
theorem callThenRetResumes : Obligations.CallThenRetResumes := by
  refine fun s p hpc => ⟨_, exec_call_regByte p hpc, fun h hsp hmem => ⟨_, exec_ret h, ?_, ?_⟩⟩
  · calc h.popPc.pc = zext9 (h.memRead h.sp) := h.popPc_pc
      _ = zext9 (low8 s.pc) := by rw [hsp, hmem, State.called_sp, State.called_memRead_top]
      _ = s.pc := zext9_low8 hpc
  · rw [State.popPc_sp, hsp, State.called_sp, sub_add_cancel]

/-! ### JMP and the conditional jumps (R172 to R180) -/

/-- A jump is one write of pc when its test holds and has no effect otherwise, for any way `P` to say what it tests. -/
theorem jumpIf_regByte (test : State → Bool) {s : State} {P : Prop} [Decidable P] (p : RegIdx)
    (hP : test s = true ↔ P) :
    jumpIf test (regByte p) s = .next (if P then s.setPc (zext9 (s.reg p)) else s) := by
  rw [jumpIf, withReg_regByte]
  by_cases h : P
  · rw [if_pos (hP.2 h), if_pos h]
  · rw [if_neg (mt hP.1 h), if_neg h]
    rfl

theorem exec_jmp_regByte (p : RegIdx) (s : State) :
    exec (.jmp (regByte p)) s = .next (s.setPc (zext9 (s.reg p))) :=
  withReg_regByte p s _

/-- So it acts as JMP or as NOP. -/
theorem jumpIf_eq_jmp_or_nop (test : State → Bool) {s : State} {P : Prop} [Decidable P] (p : RegIdx)
    (hP : test s = true ↔ P) :
    jumpIf test (regByte p) s = if P then exec (.jmp (regByte p)) s else exec .nop s := by
  rw [jumpIf_regByte test p hP, exec_jmp_regByte]
  exact apply_ite _ _ _ _

/-- Settles O26: the handler is one write of pc (R172), after the check of its one register byte. -/
theorem jmpGoesToRegister : Obligations.JmpGoesToRegister :=
  ⟨fun _ => rfl,
    fun s p => ⟨_, _, exec_jmp_regByte p s, s.setPc_pcEffect _, zext9_toNat _⟩,
    fun s _ ha => handlerFaults_of_regOperands_singleton s rfl ha⟩

/-- Settles O27: each jump's test is one bit of FL, or its complement (R175 to R180). -/
theorem conditionalJumpsTestOneBit : Obligations.ConditionalJumpsTestOneBit := by
  refine ⟨fun _ => ⟨rfl, rfl, rfl, rfl, rfl, rfl⟩, fun s p => ⟨zext9 (s.reg p), zext9_toNat _, ?_⟩, fun s a ha => ?_⟩
  · have hclear (flag : State → Bool) : (!flag s) = true ↔ flag s = false := (Bool.not_eq_true' _).to_iff
    exact ⟨jumpIf_regByte State.flagE p Iff.rfl, jumpIf_regByte (fun s => !s.flagE) p (hclear _),
      jumpIf_regByte State.flagG p Iff.rfl, jumpIf_regByte State.flagL p Iff.rfl,
      jumpIf_regByte (fun s => !s.flagL) p (hclear _), jumpIf_regByte (fun s => !s.flagG) p (hclear _)⟩
  · have hfaults {i : Instr} (hops : i.regOperands = [a]) : HandlerFaults i s .addressOutOfRange :=
      handlerFaults_of_regOperands_singleton s hops ha
    exact ⟨hfaults rfl, hfaults rfl, hfaults rfl, hfaults rfl, hfaults rfl, hfaults rfl⟩

/-! ### The conditional jumps after CMP (R145, R174) -/

/-- Each flag after a write of CMP's byte is the comparison it is named for. -/
theorem State.flags_setFl_cmpFlags (s : State) (a b : Byte) :
    (s.setFl (cmpFlags a b)).flagE = decide (a.toNat = b.toNat) ∧
    (s.setFl (cmpFlags a b)).flagG = decide (b.toNat < a.toNat) ∧
    (s.setFl (cmpFlags a b)).flagL = decide (a.toNat < b.toNat) := by
  simp only [State.flagE, State.flagG, State.flagL, State.setFl_fl, cmpFlags_eq_ite]
  rcases lt_trichotomy a.toNat b.toNat with h | h | h
  · simp [h, h.ne, h.not_gt]
  · simp [h]
  · simp [h, h.ne', h.not_gt]

/-- Settles O28: CMP's three flags are the comparisons =, > and <, and the jumps test these and their complements. -/
theorem jumpsAfterCmpFollowTheComparison : Obligations.JumpsAfterCmpFollowTheComparison := by
  refine fun s p q r => ⟨_, exec_cmp_regByte p q s, ?_⟩
  rintro _ _ rfl rfl
  obtain ⟨hE, hG, hL⟩ := s.flags_setFl_cmpFlags (s.reg p) (s.reg q)
  exact ⟨jumpIf_eq_jmp_or_nop State.flagE r (by simp [hE]),
    jumpIf_eq_jmp_or_nop (fun s => !s.flagE) r (by simp [hE]),
    jumpIf_eq_jmp_or_nop State.flagG r (by simp [hG]),
    jumpIf_eq_jmp_or_nop State.flagL r (by simp [hL]),
    jumpIf_eq_jmp_or_nop (fun s => !s.flagL) r (by simp [hL]),
    jumpIf_eq_jmp_or_nop (fun s => !s.flagG) r (by simp [hG])⟩

end Sys2Proof.Machine
end

section
/-! SUPPORT. The statements about INT and IRET (spec/47_interrupt_instructions.md): the one bit INT sets, the nine pops of
IRET, and the boundary that takes the line an INT has raised. -/

namespace Sys2Proof.Machine

/-! ### INT (R190) -/

/-- A line's byte has that line's bit alone. -/
theorem lineBit_getLsbD_of_lt (n : Line) {k : Nat} (hk : k < 8) : (lineBit n).getLsbD k = decide (k = n.val) :=
  lineBit_getLsbD n ⟨k, hk⟩

/-- Setting a line's bit sets that bit alone. -/
theorem raiseLine_getLsbD (m : Byte) (n : Line) {k : Nat} (hk : k < 8) :
    (m ||| lineBit n).getLsbD k = (m.getLsbD k || decide (k = n.val)) := by
  rw [BitVec.getLsbD_or, lineBit_getLsbD_of_lt n hk]

/-- INT of a register that holds a line's number raises that line. -/
theorem exec_int_regByte {s : State} {p : RegIdx} {n : Line} (hn : (s.reg p).toNat = n.val) :
    exec (.int (regByte p)) s = .next (s.raiseLine n) := by
  obtain ⟨k, hk⟩ := n
  subst hn
  exact (withReg_regByte p s _).trans (dif_pos hk)

/-- A line number above 7 is out of range (D11). -/
theorem exec_int_regByte_faults {s : State} {p : RegIdx} (hp : 8 ≤ (s.reg p).toNat) :
    HandlerFaults (.int (regByte p)) s .addressOutOfRange :=
  (withReg_regByte p s _).trans (dif_neg hp.not_gt)

/-- Settles O31: past the register check and the check of the line number, the handler is one write of IS (R190). -/
theorem intMakesTheLinePending : Obligations.IntMakesTheLinePending := by
  refine ⟨fun _ => rfl, fun s p hp => ?_, fun _ _ => exec_int_regByte_faults,
    fun s _ ha => handlerFaults_of_regOperands_singleton s rfl ha⟩
  let n : Line := ⟨(s.reg p).toNat, by omega⟩
  exact ⟨s.raiseLine n, _, exec_int_regByte rfl, s.setReg_regEffect isReg _, fun _ => raiseLine_getLsbD s.is n⟩

/-! ### IRET (R191) -/

theorem exec_iret (s : State) : exec .iret s = .next s.interruptReturn := rfl

/-- The return leaves in each register but SP what the seven register pops put there. -/
theorem State.interruptReturn_reg_ne {s : State} {j : RegIdx} (hj : j ≠ spReg) :
    s.interruptReturn.reg j = s.popRegs.reg j := by
  rw [State.interruptReturn_reg, if_neg hj]

theorem State.interruptReturn_sp (s : State) : s.interruptReturn.sp = s.sp + 9 := by
  rw [State.sp, State.interruptReturn_reg, if_pos rfl]

theorem State.interruptReturn_pc_toNat (s : State) :
    s.interruptReturn.pc.toNat = (s.memRead (s.sp + 8)).toNat := by
  rw [State.interruptReturn_pc, zext9_toNat]

/-- Settles O32: the handler is the return from an interrupt, whose seven register pops `State.popRegs_reg` lists. -/
theorem iretPopsTheWholeFrame : Obligations.IretPopsTheWholeFrame := by
  refine ⟨rfl, fun s => ⟨_, exec_iret s, ?_⟩⟩
  have hpopped {j : RegIdx} {v : Byte} (hj : j ≠ spReg) (hv : s.popRegs.reg j = v) : s.interruptReturn.reg j = v :=
    (State.interruptReturn_reg_ne hj).trans hv
  exact ⟨hpopped (by decide) (s.popRegs_reg 6), hpopped (by decide) (s.popRegs_reg 5),
    hpopped (by decide) (s.popRegs_reg 4), hpopped (by decide) (s.popRegs_reg 3),
    hpopped (by decide) (s.popRegs_reg 2), hpopped (by decide) (s.popRegs_reg 1),
    hpopped (by decide) (s.popRegs_reg 0), s.interruptReturn_fl, s.interruptReturn_pc_toNat, s.interruptReturn_sp,
    s.interruptReturn_ictl, fun x _ => s.interruptReturn_memRead x, s.interruptReturn_console,
    s.interruptReturn_runState, s.interruptReturn_a0, s.interruptReturn_ir, s.interruptReturn_opA,
    s.interruptReturn_opB, s.interruptReturn_ext⟩

/-! ### The boundary that takes a line -/

/-- A recognized line is taken when pc fits a byte (R216). -/
theorem State.boundary_of_recognized {s : State} {n : Line} (hn : s.mergeExternal.recognized = some n)
    (hpc : s.pc.toNat ≤ 255) : s.boundary = .ok (s.mergeExternal.entered n) := by
  simp only [State.boundary, hn]
  exact (s.mergeExternal.interruptEntry_cases n).resolve_left (fun h => hpc.not_gt h.1) |>.2

@[simp] theorem State.entered_sp (s : State) (n : Line) : (s.entered n).sp = s.sp - 9 := by
  rw [State.sp, State.entered_reg, if_pos rfl]

@[simp] theorem State.entered_is (s : State) (n : Line) : (s.entered n).is = s.is &&& ~~~ lineBit n := by
  rw [State.is, State.entered_reg, if_neg (by decide), if_pos rfl]

/-- The highest byte of the frame is the saved pc (R217). -/
theorem State.entered_memRead_savedPc (s : State) (n : Line) : (s.entered n).memRead (s.sp - 1) = low8 s.pc := by
  simp [State.entered_memRead, sub_right_inj]

/-- The lowest byte of the frame is the saved IS, the taken line's bit clear (R217, D5). -/
theorem State.entered_memRead_savedIs (s : State) (n : Line) :
    (s.entered n).memRead (s.sp - 9) = s.is &&& ~~~ lineBit n := by
  rw [State.entered_memRead, if_pos rfl]

/-- Line n has its vector at 0xF8 + n (R218, D3). -/
theorem vectorAddr_eq_ofNat (n : Line) : vectorAddr n = BitVec.ofNat 8 (0xF8 + n.val) :=
  (BitVec.ofNat_add 0xF8 n.val).symm

theorem State.entered_pc_toNat (s : State) (n : Line) :
    (s.entered n).pc.toNat = ((s.entered n).memRead (BitVec.ofNat 8 (0xF8 + n.val))).toNat := by
  rw [State.entered_pc, zext9_toNat, vectorAddr_eq_ofNat]

/-! ### A line raised where no enabled line is pending -/

theorem lowestLine_lineBit (n : Line) : lowestLine (lineBit n) = some n := by
  revert n; decide

/-- An enabled line is not pending where no enabled line is. -/
theorem getLsbD_eq_false_of_quiet {im is : Byte} {k : Nat} (hen : im.getLsbD k = true) (hquiet : im &&& is = 0) :
    is.getLsbD k = false := by
  have hbit : (im &&& is).getLsbD k = false := hquiet ▸ BitVec.getLsbD_zero
  rwa [BitVec.getLsbD_and, hen, Bool.true_and] at hbit

/-- With no enabled line pending before, the raised line, which is enabled, is the only one after. -/
theorem and_or_lineBit_of_quiet {im is : Byte} {n : Line} (hen : im.getLsbD n.val = true) (hquiet : im &&& is = 0) :
    im &&& (is ||| lineBit n) = lineBit n := by
  have hbit : im &&& lineBit n = lineBit n := by
    refine BitVec.eq_of_getLsbD_eq fun k hk => ?_
    rw [BitVec.getLsbD_and, lineBit_getLsbD_of_lt n hk]
    by_cases hkn : k = n.val
    · rw [hkn, hen, Bool.true_and]
    · simp [hkn]
  rw [BitVec.and_or_distrib_left, hquiet, hbit]
  exact BitVec.zero_or

/-- Clearing a bit that was clear before it was set gives the byte back. -/
theorem or_lineBit_and_not_lineBit {m : Byte} {n : Line} (hn : m.getLsbD n.val = false) :
    (m ||| lineBit n) &&& ~~~ lineBit n = m := by
  refine BitVec.eq_of_getLsbD_eq fun k hk => ?_
  rw [clearLine_getLsbD _ n hk, raiseLine_getLsbD _ n hk]
  by_cases hkn : k = n.val
  · rw [hkn, hn]; simp
  · simp [hkn]

/-- What the merge leaves in the registers after an INT, where nothing is requested from outside. -/
theorem State.raiseLine_mergeExternal_reg {s : State} (n : Line) (hext : s.ext.headD 0 = 0) (j : RegIdx) :
    (s.raiseLine n).mergeExternal.reg j = if j = isReg then s.is ||| lineBit n else s.reg j := by
  have hnow : (s.raiseLine n).extNow = 0 := hext
  rw [State.mergeExternal_reg, hnow, State.raiseLine, State.is, State.setReg_reg_same]
  split
  · exact BitVec.or_zero
  · next hj => exact State.setReg_reg_ne s _ hj

/-- R213, R214: the raised line is recognized, since it alone is both pending and enabled. -/
theorem State.raiseLine_mergeExternal_recognized {s : State} {n : Line} (hen : s.im.getLsbD n.val = true)
    (hquiet : s.im &&& s.is = 0) (hext : s.ext.headD 0 = 0) (hictl : s.ictl = .normal) :
    (s.raiseLine n).mergeExternal.recognized = some n := by
  have his : (s.raiseLine n).mergeExternal.is = s.is ||| lineBit n := State.raiseLine_mergeExternal_reg n hext isReg
  have him : (s.raiseLine n).mergeExternal.im = s.im := State.raiseLine_mergeExternal_reg n hext imReg
  rw [State.recognized_eq_some, him, his, and_or_lineBit_of_quiet hen hquiet]
  exact ⟨hictl, lowestLine_lineBit n⟩

/-- Settles O37: the boundary enters the raised line, and entry clears the bit that the INT has set. -/
theorem intIsTakenAtNextBoundary : Obligations.IntIsTakenAtNextBoundary := by
  intro s p hp hen hquiet hext hictl hpc
  obtain ⟨n, hn⟩ : ∃ n : Line, (s.reg p).toNat = n.val := ⟨⟨(s.reg p).toNat, by omega⟩, rfl⟩
  rw [hn] at hen ⊢
  have hrec := State.raiseLine_mergeExternal_recognized hen hquiet hext hictl
  have hsp : (s.raiseLine n).mergeExternal.sp = s.sp := State.raiseLine_mergeExternal_reg n hext spReg
  have hclear : (s.raiseLine n).mergeExternal.is &&& ~~~ lineBit n = s.is := by
    have his : (s.raiseLine n).mergeExternal.is = s.is ||| lineBit n := State.raiseLine_mergeExternal_reg n hext isReg
    rw [his, or_lineBit_and_not_lineBit (getLsbD_eq_false_of_quiet hen hquiet)]
  refine ⟨_, _, exec_int_regByte hn, State.boundary_of_recognized hrec hpc, State.entered_ictl _ n, ?_, ?_, ?_, ?_,
    State.entered_pc_toNat _ n⟩
  · rw [State.entered_is, hclear]
  · rw [State.entered_sp, hsp]
  · rw [← hsp, State.entered_memRead_savedPc]
    exact low8_toNat hpc
  · rw [← hsp, State.entered_memRead_savedIs, hclear]

end Sys2Proof.Machine
end

section
/-! SUPPORT. The statements about faults and interrupts (spec/60_exceptions.md): the zero divisor, the two faults of the
operand fetch and the opcode, the merge of the external requests, the boundary that takes a line, and the return that
undoes it. -/

namespace Sys2Proof.Machine

/-! ### DivideByZero (R203) -/

/-- A zero divisor faults, past the check of both register bytes. -/
theorem aluDivide_regByte_zero (f : Byte → Byte → Byte) {s : State} (d : RegIdx) {p : RegIdx} (hp : s.reg p = 0) :
    aluDivide f (regByte d) (regByte p) s = .next (s.raiseHere .divideByZero) :=
  (withRegs_regByte d p s _).trans (if_pos hp)

/-- Settles O14: of all that a handler makes of the run state (`HandlerOutcome.runState`), only DIV and MOD record a
DivideByZero. -/
theorem onlyDivModRaiseDivideByZero : Obligations.OnlyDivModRaiseDivideByZero := by
  refine ⟨fun s d p hp => ⟨aluDivide_regByte_zero aluDiv d hp, aluDivide_regByte_zero aluMod d hp⟩,
    fun s _ _ hab => ⟨handlerFaults_of_regOperands_pair s rfl hab, handlerFaults_of_regOperands_pair s rfl hab⟩,
    fun i s t r hs hexec ht hcause => ?_⟩
  rcases (exec_next hexec).runState with e | e | e | ⟨-, hi⟩
  · rw [e, hs] at ht
    cases ht
  · rw [e] at ht
    cases ht
  · rw [e] at ht
    cases ht
    cases hcause
  · exact hi

/-! ### The faults of the operand fetch and of the opcode -/

/-- Step 3 where the operand bytes run past the end of memory (R93): the fault comes before the operand latches and
pc are written. -/
theorem State.fetchDecode_operands_beyond {s : State} (hpc : s.pc.toNat ≤ 255)
    (hops : 255 < s.pc.toNat + operandCount (Memory.read s.mem s.pc.toNat)) :
    s.fetchDecode =
      .error (((s.setA0 s.pc).setIr (Memory.read s.mem s.pc.toNat)).raiseHere .malformedInstructionStream) := by
  rcases s.fetchDecode_cases with ⟨hbeyond, -⟩ | ⟨-, ir, rfl, ⟨-, e⟩ | ⟨hfits, -⟩⟩
  · exact absurd hbeyond hpc.not_gt
  · exact e
  · exact absurd hops hfits.not_gt

/-- Step 5a at a byte that is no opcode (R95): the fault comes after the latches and pc are written. -/
theorem State.fetchDecode_unknown {s : State} (hpc : s.pc.toNat ≤ 255)
    (hops : s.pc.toNat + operandCount (Memory.read s.mem s.pc.toNat) ≤ 255)
    (hno : ∀ i : Instr, i.opcode ≠ Memory.read s.mem s.pc.toNat) :
    s.fetchDecode = .error (s.fetched.raiseHere .unknownOpcode) := by
  rcases s.fetchDecode_cases with ⟨hbeyond, -⟩ | ⟨-, ir, rfl, ⟨hbeyond, -⟩ | ⟨-, ⟨-, e⟩ | ⟨i, hi, -⟩⟩⟩
  · exact absurd hbeyond hpc.not_gt
  · exact absurd hbeyond hops.not_gt
  · exact e
  · exact absurd hi (hno i)

/-- Settles O46, by the fault of step 3. -/
theorem operandsBeyondMemoryFault : Obligations.OperandsBeyondMemoryFault := by
  rintro s u _ hs hb hpc rfl hops
  exact step_of_fetchDecode_error hs hb (State.fetchDecode_operands_beyond hpc hops)

/-- Settles O47, by the fault of step 5a, in the state that step 4 has left (`State.fetched`). -/
theorem unknownOpcodeFaults : Obligations.UnknownOpcodeFaults := by
  rintro s u _ hs hb hpc rfl hops hno
  exact ⟨_, step_of_fetchDecode_error hs hb (State.fetchDecode_unknown hpc hops hno), rfl, State.fetched_pc_toNat hops,
    rfl, rfl, fun _ _ => rfl, fun _ _ => rfl, rfl, rfl, rfl, rfl⟩

/-! ### The merge of the external requests (R212) -/

theorem State.mergeExternal_is (s : State) : s.mergeExternal.is = s.is ||| s.ext.headD 0 := by
  rw [State.is, State.mergeExternal_reg, if_pos rfl, State.extNow]

theorem State.mergeExternal_reg_ne (s : State) {j : RegIdx} (hj : j ≠ isReg) : s.mergeExternal.reg j = s.reg j := by
  rw [State.mergeExternal_reg, if_neg hj]

theorem State.mergeExternal_keepsRegs (s : State) : KeepsRegs s s.mergeExternal [isReg] :=
  fun _ hr => s.mergeExternal_reg_ne (List.ne_of_not_mem_cons hr)

theorem State.mergeExternal_im (s : State) : s.mergeExternal.im = s.im := s.mergeExternal_reg_ne (by decide)

theorem State.mergeExternal_sp (s : State) : s.mergeExternal.sp = s.sp := s.mergeExternal_reg_ne (by decide)

/-! ### Recognition (R213, R214) -/

theorem State.recognized_eq_none {s : State} : s.recognized = none ↔ s.ictl = .handling ∨ s.im &&& s.is = 0 := by
  unfold State.recognized
  split
  · next h => simp [h, lowestLine_eq_none]
  · next h => simp [h]

theorem State.mergeExternal_recognized_eq_none {s : State} :
    s.mergeExternal.recognized = none ↔ s.ictl = .handling ∨ s.im &&& (s.is ||| s.ext.headD 0) = 0 := by
  rw [State.recognized_eq_none, State.mergeExternal_ictl, State.mergeExternal_im, State.mergeExternal_is]

theorem State.mergeExternal_recognized_eq_some {s : State} {n : Line} :
    s.mergeExternal.recognized = some n ↔
      s.ictl = .normal ∧ lowestLine (s.im &&& (s.is ||| s.ext.headD 0)) = some n := by
  rw [State.recognized_eq_some, State.mergeExternal_ictl, State.mergeExternal_im, State.mergeExternal_is]

/-! ### The boundary that takes nothing -/

theorem State.boundary_of_not_recognized {s : State} (h : s.mergeExternal.recognized = none) :
    s.boundary = .ok s.mergeExternal := by
  rcases s.boundary_cases with ⟨-, e⟩ | ⟨n, hn, -⟩
  · exact e
  · rw [h] at hn
    cases hn

/-- Settles O33: with no line recognized the boundary is the merge, which is one write of IS. -/
theorem quietBoundaryOnlyMergesRequests : Obligations.QuietBoundaryOnlyMergesRequests :=
  fun s hquiet => ⟨_, State.boundary_of_not_recognized (State.mergeExternal_recognized_eq_none.2 hquiet),
    s.mergeExternal_is, s.mergeExternal_keepsRegs, rfl, fun _ _ => rfl, rfl, rfl, rfl, rfl, rfl, rfl, rfl, rfl, rfl⟩

/-- Only the handler of IRET writes the controller state (R220). -/
theorem HandlerOutcome.ictl {s t : State} {i : Instr} (h : HandlerOutcome s i t) (hiret : i ≠ .iret) :
    t.ictl = s.ictl := by
  cases h with
  | iret => exact absurd rfl hiret
  | _ => rfl

/-- Settles O36: while Handling no line is recognized, and of the handlers only IRET's ends that. -/
theorem interruptsDoNotNest : Obligations.InterruptsDoNotNest :=
  ⟨fun _ hh => ⟨State.boundary_of_not_recognized (State.mergeExternal_recognized_eq_none.2 (.inl hh)), hh⟩,
    fun _ _ _ h hiret => (exec_next h).ictl hiret⟩

/-! ### The boundary that finds pc at 256 (R216) -/

/-- A recognized line is not taken when pc does not fit a byte. -/
theorem State.boundary_of_recognized_beyond {s : State} {n : Line} (hn : s.mergeExternal.recognized = some n)
    (hpc : 255 < s.pc.toNat) : s.boundary = .error (s.mergeExternal.raise .addressOutOfRange s.pc none) := by
  simp only [State.boundary, hn]
  exact (s.mergeExternal.interruptEntry_cases n).resolve_right (fun h => h.1.not_gt hpc) |>.2

/-- Settles O35: a line is recognized, and the one way its entry can go with this pc is the fault, after the merge. -/
theorem entryWithPc256Faults : Obligations.EntryWithPc256Faults := by
  intro s hs hictl hpc hdue
  have hrec : s.mergeExternal.recognized ≠ none := fun h => by
    rcases State.mergeExternal_recognized_eq_none.1 h with hh | hquiet
    · rw [hictl] at hh
      cases hh
    · exact hdue hquiet
  obtain ⟨n, hn⟩ := Option.ne_none_iff_exists'.1 hrec
  exact ⟨_, step_of_boundary_error hs (State.boundary_of_recognized_beyond hn hpc), rfl, s.mergeExternal_is,
    s.mergeExternal_keepsRegs, rfl, fun _ _ => rfl, rfl, rfl, rfl, rfl, rfl, rfl, rfl, rfl⟩

/-! ### What entry leaves (R216, R217) -/

theorem State.entered_reg_ne (s : State) (n : Line) {j : RegIdx} (hsp : j ≠ spReg) (his : j ≠ isReg) :
    (s.entered n).reg j = s.reg j := by
  rw [State.entered_reg, if_neg hsp, if_neg his]

theorem State.entered_memRead_savedFl (s : State) (n : Line) : (s.entered n).memRead (s.sp - 2) = s.fl := by
  simp [State.entered_memRead, sub_right_inj]

/-- The saved registers 0 to 5 stand between the saved IS and the saved FL, register 0 highest (D4). -/
theorem State.entered_memRead_savedReg (s : State) (n : Line) (k : Fin 6) :
    (s.entered n).memRead (s.sp - BitVec.ofNat 8 (3 + k.val)) = s.reg (k.castLE (by decide)) := by
  fin_cases k <;> simp [State.entered_memRead, sub_right_inj]

/-- Entry frames the nine bytes below SP. -/
theorem State.entered_keepsMem (s : State) (n : Line) :
    KeepsMem s (s.entered n) [s.sp - 1, s.sp - 2, s.sp - 3, s.sp - 4, s.sp - 5, s.sp - 6, s.sp - 7, s.sp - 8,
      s.sp - 9] := fun x hx => by
  simp only [List.mem_cons, List.not_mem_nil, or_false, not_or] at hx
  simp only [State.entered_memRead, hx, if_false]

/-- Settles O34: the line is recognized (`lowestLine_eq_some`), and entry in the merged state leaves what is claimed. -/
theorem boundaryEntersLowestLine : Obligations.BoundaryEntersLowestLine := by
  rintro s n _ hictl hpc rfl hbit hlow
  have hrec := State.mergeExternal_recognized_eq_some.2 ⟨hictl, lowestLine_eq_some.2 ⟨hbit, hlow⟩⟩
  have hsaved (k : Fin 6) := (s.mergeExternal.entered_memRead_savedReg n k).trans
    (s.mergeExternal_reg_ne (by revert k; decide))
  refine ⟨s.mergeExternal.entered n, State.boundary_of_recognized hrec hpc, State.entered_ictl _ n, fun k hk => ?_,
    fun r hr => ?_, ?_⟩
  · rw [State.entered_is, State.mergeExternal_is, clearLine_getLsbD _ n hk]
  · simp only [List.mem_cons, List.not_mem_nil, or_false, not_or] at hr
    rw [State.entered_reg_ne _ n hr.2 hr.1, s.mergeExternal_reg_ne hr.1]
  · rw [← s.mergeExternal_sp]
    exact ⟨State.entered_sp _ n, State.entered_memRead_savedPc _ n ▸ low8_toNat hpc, State.entered_memRead_savedFl _ n,
      hsaved 0, hsaved 1, hsaved 2, hsaved 3, hsaved 4, hsaved 5,
      (State.entered_memRead_savedIs _ n).trans (State.entered_is _ n).symm,
      fun x hx => s.mergeExternal.entered_keepsMem n x hx, State.entered_pc_toNat _ n, State.entered_fl _ n,
      State.entered_console _ n, State.entered_runState _ n, State.entered_a0 _ n, State.entered_ir _ n,
      State.entered_opA _ n, State.entered_opB _ n, State.entered_ext _ n⟩

/-! ### The return from what entry pushed (R219) -/

/-- The return pops register 6 from the lowest byte and register 0 from the seventh (R191). -/
theorem State.interruptReturn_reg_eq_memRead (s : State) {j : RegIdx} (hj : j ≠ spReg) :
    s.interruptReturn.reg j = s.memRead (s.sp + BitVec.ofNat 8 (6 - j.val)) := by
  rw [State.interruptReturn_reg_ne hj, State.popRegs_reg, if_neg hj]
  revert hj
  fin_cases j <;> simp [spReg]

section
variable {s t : State} (hsp : s.sp = t.sp)
  (hframe : ∀ k, k < 9 → s.memRead (t.sp + BitVec.ofNat 8 k) = t.memRead (t.sp + BitVec.ofNat 8 k))
include hsp hframe

/-- The registers a return leaves depend on SP and the frame alone. -/
theorem State.interruptReturn_reg_congr (j : RegIdx) : s.interruptReturn.reg j = t.interruptReturn.reg j := by
  by_cases hj : j = spReg
  · rw [hj]
    exact s.interruptReturn_sp.trans (hsp ▸ t.interruptReturn_sp.symm)
  · rw [State.interruptReturn_reg_eq_memRead s hj, State.interruptReturn_reg_eq_memRead t hj, hsp]
    exact hframe _ (by omega)

theorem State.interruptReturn_fl_congr : s.interruptReturn.fl = t.interruptReturn.fl := by
  rw [State.interruptReturn_fl, State.interruptReturn_fl, hsp]
  exact hframe 7 (by decide)

theorem State.interruptReturn_pc_congr : s.interruptReturn.pc = t.interruptReturn.pc := by
  rw [State.interruptReturn_pc, State.interruptReturn_pc, hsp]
  exact congrArg zext9 (hframe 8 (by decide))

end

/-- Entry and return cancel, but for the taken line's bit of IS (D5). -/
theorem State.entered_interruptReturn_reg (s : State) (n : Line) (j : RegIdx) :
    (s.entered n).interruptReturn.reg j = if j = isReg then s.is &&& ~~~ lineBit n else s.reg j := by
  by_cases hj : j = spReg
  · rw [hj, if_neg (by decide)]
    exact (State.interruptReturn_sp _).trans ((s.entered_sp n).symm ▸ sub_add_cancel s.sp 9)
  · rw [State.interruptReturn_reg_eq_memRead _ hj, State.entered_sp]
    revert hj
    fin_cases j <;> simp [State.entered_memRead, sub_add, sub_right_inj, spReg, isReg]

theorem State.entered_interruptReturn_fl (s : State) (n : Line) : (s.entered n).interruptReturn.fl = s.fl := by
  rw [State.interruptReturn_fl, State.entered_sp, sub_add]
  exact s.entered_memRead_savedFl n

theorem State.entered_interruptReturn_pc {s : State} (n : Line) (hpc : s.pc.toNat ≤ 255) :
    (s.entered n).interruptReturn.pc = s.pc := by
  rw [State.interruptReturn_pc, State.entered_sp, sub_add]
  exact (congrArg zext9 (s.entered_memRead_savedPc n)).trans (zext9_low8 hpc)

/-- A boundary that recognizes a line and goes on has taken it, with a pc that fits a byte. -/
theorem State.boundary_ok_of_recognized {s t : State} {n : Line} (hn : s.mergeExternal.recognized = some n)
    (hb : s.boundary = .ok t) : s.pc.toNat ≤ 255 ∧ t = s.mergeExternal.entered n := by
  rcases le_or_gt s.pc.toNat 255 with hpc | hpc
  · exact ⟨hpc, Except.ok.inj (hb.symm.trans (State.boundary_of_recognized hn hpc))⟩
  · rw [State.boundary_of_recognized_beyond hn hpc] at hb
    cases hb

/-- Settles O38: the return reads SP and the frame alone, so it ends as it would in the state that entry left, where it
undoes the entry. -/
theorem entryThenIretRestores : Obligations.EntryThenIretRestores := by
  intro s t h n hrec hb hsp hframe
  obtain ⟨hpc, rfl⟩ := State.boundary_ok_of_recognized hrec hb
  have hreg (j : RegIdx) := (State.interruptReturn_reg_congr hsp hframe j).trans
    (s.mergeExternal.entered_interruptReturn_reg n j)
  refine ⟨_, exec_iret h, fun r hr => ?_, fun k hk => ?_, ?_, ?_, h.interruptReturn_ictl,
    fun x _ => h.interruptReturn_memRead x⟩
  · have hr' : r ≠ isReg := List.ne_of_not_mem_cons hr
    rw [hreg, if_neg hr', s.mergeExternal_reg_ne hr']
  · rw [State.is, hreg, if_pos rfl, State.mergeExternal_is, clearLine_getLsbD _ n hk]
  · exact (State.interruptReturn_fl_congr hsp hframe).trans (State.entered_interruptReturn_fl _ n)
  · exact (State.interruptReturn_pc_congr hsp hframe).trans (State.entered_interruptReturn_pc n hpc)

end Sys2Proof.Machine
end
